-- ==== Sys2Proof/Word.lean ====
section
/-! DEFINITION. The word types of the CHIP-8 core (R11, R17): bytes, 16-bit words, 12-bit addresses, indices. -/

namespace Sys2Proof

/-- An 8-bit value: a general register, a timer, a memory byte, the immediate `NN` (R11, R56). -/
abbrev Byte := BitVec 8

/-- A 16-bit value: an opcode, `I`, `PC`, a stack entry (R11, R13). -/
abbrev Word := BitVec 16

/-- The 12-bit address field `NNN` of an opcode (R56). -/
abbrev Addr := BitVec 12

/-- A general-register index, "addressed by a 4-bit index 0 to 15" (R20); the type carries R21. -/
abbrev RegIdx := Fin 16

/-- The nibble count `N` of `DXYN`, an unsigned count 0..15 (R57). -/
abbrev Nibble := Fin 16

/-- `VF`, that is `V[15]`, the flag register (R22). -/
abbrev regVF : RegIdx := 15

/-- `zext_16` of an 8-bit or 12-bit value (R17, R57). -/
abbrev zext16 {n : Nat} (b : BitVec n) : Word := b.setWidth 16

end Sys2Proof
end

