-- ==== Sys2Proof/Config.lean ====
section
/-! DEFINITION. What is fixed for one core: the sizes of 00_scope.md, the open parameters (R9, R12, R14, R15),
and the free values, which are opaque constants that no proof can look into. -/

namespace Sys2Proof

/-- `SHIFT_SOURCE` (R14): which register supplies the value that `8XY6` and `8XYE` shift. -/
inductive ShiftSource
  /-- The destination register `V[X]` itself. -/
  | vx
  /-- The second register `V[Y]`. -/
  | vy
  deriving DecidableEq, Repr, Inhabited

/-- `SPRITE_EDGE` (R15): what happens to sprite pixels past the display edge. -/
inductive SpriteEdge
  /-- They are dropped. -/
  | clip
  /-- They land on the opposite side. -/
  | wrap
  deriving DecidableEq, Repr, Inhabited

/-- The 80 bytes of the glyph table, 16 glyphs of 5 rows (R8, R9, R114). -/
abbrev Glyphs := Vector Byte 80

/-- The configuration, "set by the host only" and not changed by reset (R34, R172). -/
structure Configuration where
  /-- `IPS`, instructions per second, a positive integer (R12). -/
  ips         : Nat
  /-- `SHIFT_SOURCE` (R14). -/
  shiftSource : ShiftSource
  /-- `SPRITE_EDGE` (R15). -/
  spriteEdge  : SpriteEdge
  /-- `GLYPHS` (R9). -/
  glyphs      : Glyphs
  deriving DecidableEq, Repr

namespace Config

/-- `MEM_SIZE` (R4). -/
@[simp] def memSize : Nat := 4096
/-- `PROGRAM_BASE` (R5). -/
@[simp] def programBase : Nat := 0x200
/-- `STACK_DEPTH` (R6). -/
@[simp] def stackDepth : Nat := 16
/-- `FB_WIDTH` (R7). -/
@[simp] def fbWidth : Nat := 64
/-- `FB_HEIGHT` (R7). -/
@[simp] def fbHeight : Nat := 32
/-- `FONT_BASE` (R8). -/
@[simp] def fontBase : Nat := 0x000
/-- `GLYPH_COUNT` (R8). -/
@[simp] def glyphCount : Nat := 16
/-- `GLYPH_BYTES` (R8). -/
@[simp] def glyphBytes : Nat := 5
/-- `TIMER_HZ` (R10). -/
@[simp] def timerHz : Nat := 60
/-- The instruction width in bytes (R13). -/
@[simp] def instrWidth : Nat := 2

/-- `IPS_DEFAULT`, the rate at construction: OPEN, a positive integer and nothing more is known of it (R12, D6).
Log entry 3. -/
opaque ipsDefault : ℕ+
/-- `SHIFT_SOURCE` of the core at construction: OPEN (R14, D7). Log entry 2. -/
opaque shiftSource : ShiftSource
/-- `SPRITE_EDGE` of the core at construction: OPEN (R15, D8). Log entry 2. -/
opaque spriteEdge : SpriteEdge
/-- `GLYPHS` of the core at construction: OPEN, "the source gives no byte of it" (R9). Log entry 1. -/
opaque glyphs : Glyphs

/-- The configuration a core is constructed with, every field open (R171). -/
def atConstruction : Configuration :=
  { ips := ipsDefault, shiftSource := shiftSource, spriteEdge := spriteEdge, glyphs := glyphs }

/-- The byte drawn by the `k`-th execution of `CXNN`: a FREE VALUE, "any of the 256 values", with no relation
between draws (R116). Log entry 4. -/
opaque randomByte : Nat → Byte

/-- What a read of a stack entry that does not exist gives, met only where `SP` is above `STACK_DEPTH`, which no
run reaches (R25): a FREE VALUE. Log entry 6. -/
opaque absentStackEntry : Nat → Word

/-- The reference glyph table of 93_implementation_defined.md, PRESUMED there ("from general knowledge, not in
source"). It is NOT the table of the core: a claim that needs it takes `cfg.glyphs = referenceGlyphs` as a
hypothesis (R114). Log entry 1. -/
def referenceGlyphs : Glyphs :=
  #v[0xF0, 0x90, 0x90, 0x90, 0xF0,  0x20, 0x60, 0x20, 0x20, 0x70,  0xF0, 0x10, 0xF0, 0x80, 0xF0,
     0xF0, 0x10, 0xF0, 0x10, 0xF0,  0x90, 0x90, 0xF0, 0x10, 0x10,  0xF0, 0x80, 0xF0, 0x10, 0xF0,
     0xF0, 0x80, 0xF0, 0x90, 0xF0,  0xF0, 0x10, 0x20, 0x40, 0x40,  0xF0, 0x90, 0xF0, 0x90, 0xF0,
     0xF0, 0x90, 0xF0, 0x10, 0xF0,  0xF0, 0x90, 0xF0, 0x90, 0x90,  0xE0, 0x90, 0xE0, 0x90, 0xE0,
     0xF0, 0x80, 0x80, 0x80, 0xF0,  0xE0, 0x90, 0x90, 0x90, 0xE0,  0xF0, 0x80, 0xF0, 0x80, 0xF0,
     0xF0, 0x80, 0xF0, 0x80, 0x80]

end Config
end Sys2Proof
end

