-- ==== Sys2Proof/Syntax.lean ====
section
/-! DEFINITION. The 34 instructions (R62), one constructor per row of spec/opcode_table.json, each carrying
exactly the operands that the decode pseudocode of R59 names for it (R69). -/

namespace Sys2Proof

/-- A decoded instruction: "a closed tagged-variant type" (R69). -/
inductive Instr
  /-- `00E0` CLS: clear the display (R126). -/
  | cls
  /-- `00EE` RET: return from subroutine (R87). -/
  | ret
  /-- `1NNN` JP addr: unconditional jump (R85). -/
  | jpAddr (nnn : Addr)
  /-- `2NNN` CALL addr: call subroutine (R86). -/
  | callAddr (nnn : Addr)
  /-- `3XNN` SE Vx, byte: skip if register equals immediate (R88). -/
  | seVxByte (x : RegIdx) (nn : Byte)
  /-- `4XNN` SNE Vx, byte: skip if register differs from immediate (R89). -/
  | sneVxByte (x : RegIdx) (nn : Byte)
  /-- `5XY0` SE Vx, Vy: skip if registers are equal (R90). -/
  | seVxVy (x y : RegIdx)
  /-- `6XNN` LD Vx, byte: load immediate (R97). -/
  | ldVxByte (x : RegIdx) (nn : Byte)
  /-- `7XNN` ADD Vx, byte: add immediate, no flag (R98). -/
  | addVxByte (x : RegIdx) (nn : Byte)
  /-- `8XY0` LD Vx, Vy: register copy (R99). -/
  | ldVxVy (x y : RegIdx)
  /-- `8XY1` OR Vx, Vy (R100). -/
  | orVxVy (x y : RegIdx)
  /-- `8XY2` AND Vx, Vy (R101). -/
  | andVxVy (x y : RegIdx)
  /-- `8XY3` XOR Vx, Vy (R102). -/
  | xorVxVy (x y : RegIdx)
  /-- `8XY4` ADD Vx, Vy: add with carry (R103). -/
  | addVxVy (x y : RegIdx)
  /-- `8XY5` SUB Vx, Vy (R104). -/
  | subVxVy (x y : RegIdx)
  /-- `8XY6` SHR Vx, Vy: logical shift right by 1 (R107). -/
  | shrVxVy (x y : RegIdx)
  /-- `8XY7` SUBN Vx, Vy (R105). -/
  | subnVxVy (x y : RegIdx)
  /-- `8XYE` SHL Vx, Vy: logical shift left by 1 (R108). -/
  | shlVxVy (x y : RegIdx)
  /-- `9XY0` SNE Vx, Vy: skip if registers differ (R91). -/
  | sneVxVy (x y : RegIdx)
  /-- `ANNN` LD I, addr (R110). -/
  | ldIAddr (nnn : Addr)
  /-- `BNNN` JP V0, addr: indirect jump (R92). -/
  | jpV0Addr (nnn : Addr)
  /-- `CXNN` RND Vx, byte: masked random byte (R115). -/
  | rndVxByte (x : RegIdx) (nn : Byte)
  /-- `DXYN` DRW Vx, Vy, nibble: draw a sprite (R128). -/
  | drwVxVyNibble (x y : RegIdx) (n : Nibble)
  /-- `EX9E` SKP Vx: skip if key pressed (R141). -/
  | skpVx (x : RegIdx)
  /-- `EXA1` SKNP Vx: skip if key not pressed (R142). -/
  | sknpVx (x : RegIdx)
  /-- `FX07` LD Vx, DT: read the delay timer (R149). -/
  | ldVxDT (x : RegIdx)
  /-- `FX0A` LD Vx, K: wait for a key release (R143). -/
  | ldVxK (x : RegIdx)
  /-- `FX15` LD DT, Vx: set the delay timer (R150). -/
  | ldDTVx (x : RegIdx)
  /-- `FX18` LD ST, Vx: set the sound timer (R151). -/
  | ldSTVx (x : RegIdx)
  /-- `FX1E` ADD I, Vx (R112). -/
  | addIVx (x : RegIdx)
  /-- `FX29` LD F, Vx: point `I` at a glyph (R111). -/
  | ldFVx (x : RegIdx)
  /-- `FX33` LD B, Vx: store the decimal digits (R118). -/
  | ldBVx (x : RegIdx)
  /-- `FX55` LD [I], Vx: dump registers to memory (R119). -/
  | ldMemVx (x : RegIdx)
  /-- `FX65` LD Vx, [I]: load registers from memory (R120). -/
  | ldVxMem (x : RegIdx)
  deriving DecidableEq, Repr

end Sys2Proof
end

