-- ==== Sys2Proof/WellFormed.lean ====
section
/-! DEFINITION. Well-formedness of what the outside world hands to the core. The operand TYPES of `Instr` already
carry every bound the spec gives an operand (R21, R57), so each instruction term is well-formed; the checks that
can fail are those on the host's inputs: a configuration, a program image, a key number. -/

namespace Sys2Proof

/-- Every operand lies in the range its field can hold (R57). The types make it true of every term; it is written
out so that a change of a type that would lose a bound is seen here. -/
def Instr.wellFormed : Instr → Bool
  | .cls | .ret => true
  | .jpAddr nnn | .callAddr nnn | .ldIAddr nnn | .jpV0Addr nnn => nnn.toNat < 4096
  | .seVxByte x nn | .sneVxByte x nn | .ldVxByte x nn | .addVxByte x nn | .rndVxByte x nn =>
    x.val < 16 && nn.toNat < 256
  | .seVxVy x y | .sneVxVy x y | .ldVxVy x y | .orVxVy x y | .andVxVy x y | .xorVxVy x y | .addVxVy x y
  | .subVxVy x y | .shrVxVy x y | .subnVxVy x y | .shlVxVy x y => x.val < 16 && y.val < 16
  | .drwVxVyNibble x y n => x.val < 16 && y.val < 16 && n.val < 16
  | .skpVx x | .sknpVx x | .ldVxDT x | .ldVxK x | .ldDTVx x | .ldSTVx x | .addIVx x | .ldFVx x | .ldBVx x
  | .ldMemVx x | .ldVxMem x => x.val < 16

/-- A configuration is legal when its rate is positive (R12, R80). -/
def Configuration.wellFormed (c : Configuration) : Bool := 0 < c.ips

/-- A program image fits when `PROGRAM_BASE + n` does not exceed `MEM_SIZE` (R174): at most 3584 bytes. -/
def imageWellFormed (image : List Byte) : Bool := Config.programBase + image.length ≤ Config.memSize

/-- A key number the host may post names one of the 16 slots (R136). -/
def keyWellFormed (k : Nat) : Bool := k < 16

end Sys2Proof
end

