-- ==== Sys2Proof/Decode.lean ====
section
/-! DEFINITION. Decoding and encoding (30_encoding.md): the fields of an opcode, the total decoder of R59, the
encoder from the formats of R58, the byte order of instruction words (R45), and the rows of the opcode table. -/

namespace Sys2Proof

/-- Why the bytes offered are no instruction. -/
inductive DecodeError
  /-- The word matches no pattern: `InvalidOpcode(w)` (R59, R65). -/
  | invalidOpcode (w : Word)
  /-- Fewer than the two bytes of an instruction word (R55). -/
  | truncated
  deriving DecidableEq, Repr

/-! The fields of an opcode (R56). -/

/-- `op = w[15:12]`, the family nibble (R56). -/
def fieldOp (w : Word) : Fin 16 := (w.extractLsb 15 12).toFin
/-- `X = w[11:8]` (R56). -/
def fieldX (w : Word) : RegIdx := (w.extractLsb 11 8).toFin
/-- `Y = w[7:4]` (R56). -/
def fieldY (w : Word) : RegIdx := (w.extractLsb 7 4).toFin
/-- `N = w[3:0]` (R56). -/
def fieldN (w : Word) : Nibble := (w.extractLsb 3 0).toFin
/-- `NN = w[7:0]` (R56). -/
def fieldNN (w : Word) : Byte := w.extractLsb 7 0
/-- `NNN = w[11:0]` (R56). -/
def fieldNNN (w : Word) : Addr := w.extractLsb 11 0

/-- Family `0`: "selected by the whole word" (R61, R63). -/
def decode0 (w : Word) : Except DecodeError Instr :=
  if w = 0x00E0 then .ok .cls else if w = 0x00EE then .ok .ret else .error (.invalidOpcode w)

/-- Family `8`: selected by the bottom nibble (R59, R61). -/
def decode8 (w : Word) : Except DecodeError Instr :=
  let x := fieldX w
  let y := fieldY w
  match (fieldN w).val with
  | 0x0 => .ok (.ldVxVy x y)
  | 0x1 => .ok (.orVxVy x y)
  | 0x2 => .ok (.andVxVy x y)
  | 0x3 => .ok (.xorVxVy x y)
  | 0x4 => .ok (.addVxVy x y)
  | 0x5 => .ok (.subVxVy x y)
  | 0x6 => .ok (.shrVxVy x y)
  | 0x7 => .ok (.subnVxVy x y)
  | 0xE => .ok (.shlVxVy x y)
  | _ => .error (.invalidOpcode w)

/-- Family `E`: selected by the bottom byte (R59, R61). -/
def decodeE (w : Word) : Except DecodeError Instr :=
  if fieldNN w = 0x9E then .ok (.skpVx (fieldX w))
  else if fieldNN w = 0xA1 then .ok (.sknpVx (fieldX w))
  else .error (.invalidOpcode w)

/-- Family `F`: selected by the bottom byte (R59, R61). -/
def decodeF (w : Word) : Except DecodeError Instr :=
  let x := fieldX w
  let nn := fieldNN w
  if nn = 0x07 then .ok (.ldVxDT x)
  else if nn = 0x0A then .ok (.ldVxK x)
  else if nn = 0x15 then .ok (.ldDTVx x)
  else if nn = 0x18 then .ok (.ldSTVx x)
  else if nn = 0x1E then .ok (.addIVx x)
  else if nn = 0x29 then .ok (.ldFVx x)
  else if nn = 0x33 then .ok (.ldBVx x)
  else if nn = 0x55 then .ok (.ldMemVx x)
  else if nn = 0x65 then .ok (.ldVxMem x)
  else .error (.invalidOpcode w)

/-- `Decode(w)`: "a total, pure function from a 16-bit word to either one instruction with its operands or
InvalidOpcode(w)" (R59). -/
def decode (w : Word) : Except DecodeError Instr :=
  let x := fieldX w
  let y := fieldY w
  let nn := fieldNN w
  let nnn := fieldNNN w
  match (fieldOp w).val with
  | 0x0 => decode0 w
  | 0x1 => .ok (.jpAddr nnn)
  | 0x2 => .ok (.callAddr nnn)
  | 0x3 => .ok (.seVxByte x nn)
  | 0x4 => .ok (.sneVxByte x nn)
  | 0x5 => if (fieldN w).val = 0 then .ok (.seVxVy x y) else .error (.invalidOpcode w)
  | 0x6 => .ok (.ldVxByte x nn)
  | 0x7 => .ok (.addVxByte x nn)
  | 0x8 => decode8 w
  | 0x9 => if (fieldN w).val = 0 then .ok (.sneVxVy x y) else .error (.invalidOpcode w)
  | 0xA => .ok (.ldIAddr nnn)
  | 0xB => .ok (.jpV0Addr nnn)
  | 0xC => .ok (.rndVxByte x nn)
  | 0xD => .ok (.drwVxVyNibble x y (fieldN w))
  | 0xE => decodeE w
  | _ => decodeF w

/-! Byte order (R45): "the byte at PC is bits 15..8 of the opcode and the byte at PC+1 is bits 7..0". -/

/-- The opcode of two fetched bytes, `w = Mem[PC] * 256 + Mem[PC+1]` (R45, R71). -/
def wordOfBytes (hi lo : Byte) : Word := hi ++ lo
/-- Bits 15..8 of an opcode, the byte at the lower address (R45). -/
def highByte (w : Word) : Byte := w.extractLsb 15 8
/-- Bits 7..0 of an opcode, the byte at the higher address (R45). -/
def lowByte (w : Word) : Byte := w.extractLsb 7 0
/-- An opcode as it lies in memory, lowest address first (R45). -/
def bytesOfWord (w : Word) : List Byte := [highByte w, lowByte w]

/-- Decode the first instruction of any byte list and give the rest of the list; total, rejecting by name. -/
def decodeBytes : List Byte → Except DecodeError (Instr × List Byte)
  | hi :: lo :: rest =>
    match decode (wordOfBytes hi lo) with
    | .ok i => .ok (i, rest)
    | .error e => .error e
  | _ => .error .truncated

/-- The instruction the decoder reads from a word numbered as spec/opcode_table.json numbers it: bit 0 the least
significant bit of the one 16-bit word, every bit from `nbits` upwards 0. The word is laid out in memory order and
handed to `decodeBytes`. -/
def decodeTableWord (nbits w : Nat) : Option Instr :=
  match decodeBytes (bytesOfWord (BitVec.ofNat 16 (w % 2 ^ nbits))) with
  | .ok (i, _) => some i
  | .error _ => none

/-! The formats of R58, and the encoder. -/

/-- Format `A`: `oooo nnnn nnnn nnnn`. -/
def formatA (o : BitVec 4) (nnn : Addr) : Word := o ++ nnn
/-- Format `RI`: `oooo xxxx nnnn nnnn`; format `R` has a sub-opcode in the place of the immediate. -/
def formatRI (o : BitVec 4) (x : RegIdx) (nn : Byte) : Word := (o ++ (BitVec.ofFin x : BitVec 4) : BitVec 8) ++ nn
/-- Format `RR`: `oooo xxxx yyyy ssss`; format `RRN` has a count in the place of the sub-opcode. -/
def formatRR (o : BitVec 4) (x y : RegIdx) (s : BitVec 4) : Word :=
  (o ++ (BitVec.ofFin x : BitVec 4) : BitVec 8) ++ ((BitVec.ofFin y : BitVec 4) ++ s : BitVec 8)

/-- The opcode of an instruction, from the encoding line of its own rule (R85 to R151). -/
def encode : Instr → Word
  | .cls => 0x00E0
  | .ret => 0x00EE
  | .jpAddr nnn => formatA 0x1 nnn
  | .callAddr nnn => formatA 0x2 nnn
  | .seVxByte x nn => formatRI 0x3 x nn
  | .sneVxByte x nn => formatRI 0x4 x nn
  | .seVxVy x y => formatRR 0x5 x y 0x0
  | .ldVxByte x nn => formatRI 0x6 x nn
  | .addVxByte x nn => formatRI 0x7 x nn
  | .ldVxVy x y => formatRR 0x8 x y 0x0
  | .orVxVy x y => formatRR 0x8 x y 0x1
  | .andVxVy x y => formatRR 0x8 x y 0x2
  | .xorVxVy x y => formatRR 0x8 x y 0x3
  | .addVxVy x y => formatRR 0x8 x y 0x4
  | .subVxVy x y => formatRR 0x8 x y 0x5
  | .shrVxVy x y => formatRR 0x8 x y 0x6
  | .subnVxVy x y => formatRR 0x8 x y 0x7
  | .shlVxVy x y => formatRR 0x8 x y 0xE
  | .sneVxVy x y => formatRR 0x9 x y 0x0
  | .ldIAddr nnn => formatA 0xA nnn
  | .jpV0Addr nnn => formatA 0xB nnn
  | .rndVxByte x nn => formatRI 0xC x nn
  | .drwVxVyNibble x y n => formatRR 0xD x y (BitVec.ofFin n)
  | .skpVx x => formatRI 0xE x 0x9E
  | .sknpVx x => formatRI 0xE x 0xA1
  | .ldVxDT x => formatRI 0xF x 0x07
  | .ldVxK x => formatRI 0xF x 0x0A
  | .ldDTVx x => formatRI 0xF x 0x15
  | .ldSTVx x => formatRI 0xF x 0x18
  | .addIVx x => formatRI 0xF x 0x1E
  | .ldFVx x => formatRI 0xF x 0x29
  | .ldBVx x => formatRI 0xF x 0x33
  | .ldMemVx x => formatRI 0xF x 0x55
  | .ldVxMem x => formatRI 0xF x 0x65

/-! The rows of spec/opcode_table.json: a word stands for a row when `w AND mask = match`. -/

/-- One row's `mask` and `match`. -/
structure OpcodeRow where
  mask    : Word
  pattern : Word
  deriving DecidableEq, Repr

/-- The row an instruction belongs to, as the table gives it. -/
def Instr.row : Instr → OpcodeRow
  | .cls => ⟨0xFFFF, 0x00E0⟩
  | .ret => ⟨0xFFFF, 0x00EE⟩
  | .jpAddr _ => ⟨0xF000, 0x1000⟩
  | .callAddr _ => ⟨0xF000, 0x2000⟩
  | .seVxByte _ _ => ⟨0xF000, 0x3000⟩
  | .sneVxByte _ _ => ⟨0xF000, 0x4000⟩
  | .seVxVy _ _ => ⟨0xF00F, 0x5000⟩
  | .ldVxByte _ _ => ⟨0xF000, 0x6000⟩
  | .addVxByte _ _ => ⟨0xF000, 0x7000⟩
  | .ldVxVy _ _ => ⟨0xF00F, 0x8000⟩
  | .orVxVy _ _ => ⟨0xF00F, 0x8001⟩
  | .andVxVy _ _ => ⟨0xF00F, 0x8002⟩
  | .xorVxVy _ _ => ⟨0xF00F, 0x8003⟩
  | .addVxVy _ _ => ⟨0xF00F, 0x8004⟩
  | .subVxVy _ _ => ⟨0xF00F, 0x8005⟩
  | .shrVxVy _ _ => ⟨0xF00F, 0x8006⟩
  | .subnVxVy _ _ => ⟨0xF00F, 0x8007⟩
  | .shlVxVy _ _ => ⟨0xF00F, 0x800E⟩
  | .sneVxVy _ _ => ⟨0xF00F, 0x9000⟩
  | .ldIAddr _ => ⟨0xF000, 0xA000⟩
  | .jpV0Addr _ => ⟨0xF000, 0xB000⟩
  | .rndVxByte _ _ => ⟨0xF000, 0xC000⟩
  | .drwVxVyNibble _ _ _ => ⟨0xF000, 0xD000⟩
  | .skpVx _ => ⟨0xF0FF, 0xE09E⟩
  | .sknpVx _ => ⟨0xF0FF, 0xE0A1⟩
  | .ldVxDT _ => ⟨0xF0FF, 0xF007⟩
  | .ldVxK _ => ⟨0xF0FF, 0xF00A⟩
  | .ldDTVx _ => ⟨0xF0FF, 0xF015⟩
  | .ldSTVx _ => ⟨0xF0FF, 0xF018⟩
  | .addIVx _ => ⟨0xF0FF, 0xF01E⟩
  | .ldFVx _ => ⟨0xF0FF, 0xF029⟩
  | .ldBVx _ => ⟨0xF0FF, 0xF033⟩
  | .ldMemVx _ => ⟨0xF0FF, 0xF055⟩
  | .ldVxMem _ => ⟨0xF0FF, 0xF065⟩

/-- `w` is a word of the row. -/
def OpcodeRow.covers (r : OpcodeRow) (w : Word) : Bool := w &&& r.mask = r.pattern

end Sys2Proof
end

