-- ==== Sys2Proof/Machine/State.lean ====
section
/-! DEFINITION. The state of the machine (10_state.md), the reasons a cycle can stop (60_exceptions.md), and the
state at construction. Every field is plain data. -/

namespace Sys2Proof.Machine

/-- A framebuffer pixel (R31). -/
inductive Pixel
  | off
  | on
  deriving DecidableEq, Repr, Inhabited

/-- A keypad slot (R32). -/
inductive KeyState
  | idle
  | pressed
  /-- The one-shot edge, visible to the instructions of one cycle (R140). -/
  | released
  deriving DecidableEq, Repr, Inhabited

/-- Memory: the listed (address, byte) pairs; an address that is not listed reads as its reset contents (R30, R47).
The canonical form is `Memory.wf` of Machine/Ops.lean. -/
abbrev Memory := List Host.Cell

/-- 32 rows of 64 pixels, `FB[y][x]` (R17, R31). -/
abbrev Framebuffer := Vector (Vector Pixel 64) 32

/-- The 16 keypad slots (R32). -/
abbrev Keypad := Vector KeyState 16

/-- The random source, an INPUT of the machine (R16, R116); the two fields are the model's own (log entry 4). -/
structure RngSource where
  /-- The bytes a test has injected, next draw first. -/
  injected : List Byte
  /-- How many draws have been made, which is how many `CXNN` have executed (R117). -/
  draws    : Nat
  deriving DecidableEq, Repr

/-- Everything the spec gives the machine (R20 to R37), and two items of the model's own: `rng` (log entry 4) and
`redraw`, the wire on which an instruction returns its indication within a cycle (log entry 5). -/
structure State where
  /-- `V[0]` to `V[15]`, 8 bits each (R20); `V[15]` is `VF`, the only flag (R22). -/
  v        : Vector Byte 16
  /-- `I`, the 16-bit address register (R23). -/
  i        : Word
  /-- `PC`, 16 bits (R24). -/
  pc       : Word
  /-- `SP`, 8 bits, the number of occupied stack entries (R25). -/
  sp       : Byte
  /-- `Stack[0]` to `Stack[15]`, 16 bits each (R26). -/
  stack    : Vector Word 16
  /-- `DT`, the delay timer, 8 bits (R27). -/
  dt       : Byte
  /-- `ST`, the sound timer, 8 bits (R28). -/
  st       : Byte
  /-- `accDT`, an exact rational number of seconds (R29). -/
  accDT    : Rat
  /-- `accST`, an exact rational number of seconds (R29). -/
  accST    : Rat
  /-- The 4096 bytes of memory (R30, R40). -/
  mem      : Memory
  /-- The framebuffer (R31). -/
  fb       : Framebuffer
  /-- The keypad slots `K[0]` to `K[15]` (R32). -/
  keys     : Keypad
  /-- The clock's residual time, an exact rational number of microseconds (R33). -/
  clockAcc : Rat
  /-- `IPS`, `SHIFT_SOURCE`, `SPRITE_EDGE`, `GLYPHS` (R34). -/
  cfg      : Configuration
  /-- The random source (R16). -/
  rng      : RngSource
  /-- The indication that the instruction of THIS cycle returned (R73, R133), on its way from `exec` to the result of the cycle.
  Nothing reads it but the end of the same cycle, which gives it to the host as `Ok(redraw)` and lowers it: between calls it
  is false, so nothing stores it (R35, R77, R81; log entry 5). -/
  redraw   : Bool
  deriving DecidableEq, Repr

/-- The faults of a cycle (R155), each with the info it records. A cycle that faults changes no state (R76): the state
after it is the state before it. All four are the spec's own faults, so stopping here is what the hardware does. -/
inductive Fault
  /-- Code 1: decode of a word that is not an instruction (R156). Raised by `step`. Safe: the spec's own fault. -/
  | invalidOpcode (w : Word) (pc : Word)
  /-- Code 2: an access past the end of memory (R157). Raised by fetch, `DXYN`, `FX33`, `FX55`, `FX65`, and by a
  program load that does not fit (R174). Safe: the spec's own fault. -/
  | memoryFault (addr len : Nat) (pc : Word)
  /-- Code 3: `2NNN` with a full stack (R158). Safe: the spec's own fault. -/
  | stackOverflow (pc : Word)
  /-- Code 4: `00EE` with an empty stack (R159). Safe: the spec's own fault. -/
  | stackUnderflow (pc : Word)
  deriving DecidableEq, Repr

/-- Why the model gives no meaning to an instruction. No arm of `exec` answers with it: every instruction is modelled. -/
inductive Refusal
  /-- An instruction without a meaning in the model. Safe: nothing is claimed of it. -/
  | notModelled (mnemonic : String)
  deriving DecidableEq, Repr

namespace State

/-- The state right after construction with a configuration (R170, R171). -/
def construct (cfg : Configuration) : State :=
  { v        := Vector.replicate 16 0
    i        := 0
    pc       := BitVec.ofNat 16 Config.programBase
    sp       := 0
    stack    := Vector.replicate 16 0
    dt       := 0
    st       := 0
    accDT    := 0
    accST    := 0
    mem      := []
    fb       := Vector.replicate 32 (Vector.replicate 64 .off)
    keys     := Vector.replicate 16 .idle
    clockAcc := 0
    cfg      := cfg
    rng      := { injected := [], draws := 0 }
    redraw   := false }

/-- The machine right after reset (R170): every field at the value the spec gives, the configuration open (R171,
log entries 1, 2, 3); the random source at the model's own value (log entry 4), and no indication pending (R81, log entry 5). -/
def reset : State := construct Config.atConstruction

end State
end Sys2Proof.Machine
end

