-- ==== Sys2Proof/Machine/Ops.lean ====
section
/-! DEFINITION. The named operations over memory, registers, the stack and the program counter, the raising of a fault,
and the two ways an instruction ends. -/

namespace Sys2Proof.Machine

/-! ### Memory -/

namespace Memory

/-- What an address reads as while nothing has been written to it since reset: the glyph table at `FONT_BASE`, zero
elsewhere (R30, R47, R170). -/
def resetByte (g : Glyphs) (a : Nat) : Byte :=
  if h : a < Config.glyphCount * Config.glyphBytes then g[a]'(by simpa using h) else 0

/-- The byte listed for an address, if one is. -/
def find? : Memory → Nat → Option Byte
  | [], _ => none
  | (a', b) :: m, a => if a' = a then some b else find? m a

/-- One byte of memory. -/
def read (g : Glyphs) (m : Memory) (a : Nat) : Byte := (find? m a).getD (resetByte g a)

/-- List a byte for an address, keeping the addresses rising. -/
def put : Memory → Nat → Byte → Memory
  | [], a, b => [(a, b)]
  | (a', b') :: m, a, b =>
    if a < a' then (a, b) :: (a', b') :: m
    else if a = a' then (a, b) :: m
    else (a', b') :: put m a b

/-- Take an address out of the list. -/
def erase : Memory → Nat → Memory
  | [], _ => []
  | (a', b') :: m, a => if a' = a then erase m a else (a', b') :: erase m a

/-- Write one byte, keeping the canonical form: writing what an unlisted address reads as removes the entry. -/
def write (g : Glyphs) (m : Memory) (a : Nat) (b : Byte) : Memory :=
  if b = resetByte g a then erase m a else put m a b

/-- Write bytes at `addr`, `addr+1`, ... (R43). -/
def writeBytes (g : Glyphs) (m : Memory) (addr : Nat) : List Byte → Memory
  | [] => m
  | b :: bs => writeBytes g (write g m addr b) (addr + 1) bs

/-- The addresses rise strictly from `lo` upwards, stay below `MEM_SIZE`, and no entry equals the reset contents. -/
def wfFrom (g : Glyphs) : Nat → Memory → Bool
  | _, [] => true
  | lo, (a, b) :: m => lo ≤ a && a < Config.memSize && b != resetByte g a && wfFrom g (a + 1) m

/-- The canonical form of memory. -/
def wf (g : Glyphs) (m : Memory) : Bool := wfFrom g 0 m

end Memory

/-- `Mem[a]`, the byte a read of address `a` gives (R42). -/
def State.byteAt (s : State) (a : Nat) : Byte := Memory.read s.cfg.glyphs s.mem a

/-- `MemRead(addr, n)`: the bound is checked on unbounded naturals before any byte is read (R42). -/
def memRead (s : State) (addr n : Nat) : Except Fault (List Byte) :=
  if addr + n > Config.memSize then .error (.memoryFault addr n s.pc)
  else .ok ((List.range n).map fun j => s.byteAt (addr + j))

/-- The bytes of memory replaced, every other part of the state kept. -/
def State.setBytes (s : State) (addr : Nat) (bytes : List Byte) : State :=
  { s with mem := Memory.writeBytes s.cfg.glyphs s.mem addr bytes }

/-- `MemWrite(addr, bytes)`: all or nothing, with the same bound (R43). -/
def memWrite (s : State) (addr : Nat) (bytes : List Byte) : Except Fault State :=
  if addr + bytes.length > Config.memSize then .error (.memoryFault addr bytes.length s.pc)
  else .ok (s.setBytes addr bytes)

/-- The opcode at `PC`: `MemRead(PC, 2)`, big-endian, with no alignment requirement, from the current memory
(R45, R46, R53, R71). -/
def fetch (s : State) : Except Fault Word :=
  match memRead s s.pc.toNat Config.instrWidth with
  | .error f => .error f
  | .ok bytes => .ok (wordOfBytes (bytes.getD 0 0) (bytes.getD 1 0))

/-! ### Registers -/

/-- `V[x]` (R20). -/
def State.reg (s : State) (x : RegIdx) : Byte := s.v[x]

/-- `V[x] <- b`: no register is hardwired (R20). -/
def State.setReg (s : State) (x : RegIdx) (b : Byte) : State := { s with v := s.v.set x b }

/-- `V[k] <- b0; V[k+1] <- b1; ...`, as far as there are registers (R120). -/
def setRegsFrom (v : Vector Byte 16) (k : Nat) : List Byte → Vector Byte 16
  | [] => v
  | b :: bs => setRegsFrom (v.setIfInBounds k b) (k + 1) bs

/-- `V[j] <- bytes[j]` for every `j` (R120). -/
def State.loadRegs (s : State) (bytes : List Byte) : State := { s with v := setRegsFrom s.v 0 bytes }

/-- `I <- w` (R23). -/
def State.setI (s : State) (w : Word) : State := { s with i := w }

/-- `DT <- b; accDT <- 0` (R150). -/
def State.setDT (s : State) (b : Byte) : State := { s with dt := b, accDT := 0 }

/-- `ST <- b; accST <- 0` (R151). -/
def State.setST (s : State) (b : Byte) : State := { s with st := b, accST := 0 }

/-! ### The random source -/

/-- The byte the next draw gives: the next injected byte, or else the free value of this draw (R116, log entry 4). -/
def State.nextDraw (s : State) : Byte :=
  match s.rng.injected with
  | b :: _ => b
  | [] => Config.randomByte s.rng.draws

/-- One draw is made (R116). -/
def State.afterDraw (s : State) : State :=
  { s with rng := { injected := s.rng.injected.tail, draws := s.rng.draws + 1 } }

/-! ### Faults and the program counter -/

/-- Fault entry: the cycle stops, no state is saved or changed, and the fault is returned to the host (R161). There is
no return from a fault (R162). -/
def raise (f : Fault) : Host.Outcome State Fault Refusal := .fault f

/-- The numeric cause code of a fault (R155). -/
def Fault.code : Fault → Nat
  | .invalidOpcode _ _ => 1
  | .memoryFault _ _ _ => 2
  | .stackOverflow _ => 3
  | .stackUnderflow _ => 4

/-- The `PC` a fault records: the address of the faulting instruction (R155). -/
def Fault.pc : Fault → Word
  | .invalidOpcode _ pc | .memoryFault _ _ pc | .stackOverflow pc | .stackUnderflow pc => pc

/-- The PC action an instruction returns (R74). -/
inductive PcAction
  /-- Advance by one instruction width. -/
  | next
  /-- Advance by two instruction widths. -/
  | skip
  /-- Set the program counter absolutely. -/
  | jump (target : Word)
  /-- `Repeat`: do not advance; returned by `FX0A` alone. -/
  | again
  deriving DecidableEq, Repr

/-- The program counter after a PC action, with 16-bit arithmetic (R75). -/
def pcAfter (pc : Word) : PcAction → Word
  | .next => pc + BitVec.ofNat 16 Config.instrWidth
  | .skip => pc + BitVec.ofNat 16 (2 * Config.instrWidth)
  | .jump t => t
  | .again => pc

/-- `ApplyPcAction(a)` and the redraw indication the instruction returns (R73, R75, R133). -/
def State.finish (s : State) (a : PcAction) (redraw : Bool) : State :=
  { s with pc := pcAfter s.pc a, redraw := redraw }

/-- The indication of a state set: with `false` it is given up, "nothing stores it between calls" (R81). -/
def State.withRedraw (s : State) (b : Bool) : State := { s with redraw := b }

/-- An instruction that completes with `redraw = false`: every one but `00E0` and `DXYN` (R133). -/
def complete (a : PcAction) (s : State) : Host.Outcome State Fault Refusal := .next (s.finish a false)

/-- An instruction that completes with `redraw = true`: `00E0` and `DXYN` (R133). -/
def completeRedraw (a : PcAction) (s : State) : Host.Outcome State Fault Refusal := .next (s.finish a true)

/-! ### The return stack -/

/-- `Stack[k]`; an entry that does not exist reads as a free value, which no run meets (R26, log entry 6). -/
def State.stackEntry (s : State) (k : Nat) : Word :=
  if h : k < 16 then s.stack[k] else Config.absentStackEntry k

/-- `Stack[SP] <- w; SP <- SP + 1`, the write of `2NNN` (R86). -/
def State.push (s : State) (w : Word) : State :=
  { s with stack := s.stack.setIfInBounds s.sp.toNat w, sp := s.sp + 1 }

/-- `SP <- SP - 1`: the popped entry "stays in Stack[SP]" (R87). -/
def State.pop (s : State) : State := { s with sp := s.sp - 1 }

/-- `Stack[SP-1]`, the most recent occupied entry (R26). -/
def State.stackTop (s : State) : Word := s.stackEntry (s.sp.toNat - 1)

end Sys2Proof.Machine
end

