-- ==== Sys2Proof/Machine/Operands.lean ====
section
/-! DEFINITION. The operand forms: what each instruction computes from its fields and from registers before it writes
anything (R57, R96, R178). -/

namespace Sys2Proof.Machine

/-- The value that `8XY6` and `8XYE` shift, chosen by `SHIFT_SOURCE` (R106). -/
def shiftOperand (s : State) (x y : RegIdx) : Byte :=
  match s.cfg.shiftSource with
  | .vx => s.reg x
  | .vy => s.reg y

/-- The target of `BNNN`: `zext_16(NNN) + V[0]`, not masked to 12 bits (R92). -/
def indirectTarget (s : State) (nnn : Addr) : Word := zext16 nnn + zext16 (s.reg 0)

/-- The address of the glyph for the low nibble of a register value, `FONT_BASE + GLYPH_BYTES * v[3:0]` (R111). -/
def glyphAddress (b : Byte) : Word :=
  BitVec.ofNat 16 (Config.fontBase + Config.glyphBytes * (b.toNat % 16))

/-- The decimal digits of a byte: hundreds, tens, units (R118). -/
def bcdDigits (b : Byte) : List Byte :=
  [BitVec.ofNat 8 (b.toNat / 100), BitVec.ofNat 8 (b.toNat / 10 % 10), BitVec.ofNat 8 (b.toNat % 10)]

/-- How many registers `FX55` and `FX65` move: `X + 1`, the upper bound being inclusive (R119, R120). -/
def bulkCount (x : RegIdx) : Nat := x.val + 1

/-- `[V[0], V[1], ..., V[X]]` (R119). -/
def dumpBytes (s : State) (x : RegIdx) : List Byte := s.v.toList.take (bulkCount x)

/-- The start column of a sprite: `V[X] mod FB_WIDTH`, whatever `SPRITE_EDGE` is (R129). -/
def startColumn (s : State) (x : RegIdx) : Nat := (s.reg x).toNat % Config.fbWidth

/-- The start row of a sprite: `V[Y] mod FB_HEIGHT` (R129). -/
def startRow (s : State) (y : RegIdx) : Nat := (s.reg y).toNat % Config.fbHeight

end Sys2Proof.Machine
end

