-- ==== Sys2Proof/Machine/Flags.lean ====
section
/-! DEFINITION. Every flag computation (R22): `VF` is the sole flag, and each flag-writing instruction writes it on both
paths, after its result (R96). -/

namespace Sys2Proof.Machine

/-- The value written to `VF`: 1 or 0 (R22). -/
def flagByte (b : Bool) : Byte := if b then 1 else 0

/-- "The carry of an addition a + b is 1 when a + b >= 256" (R95, R103). -/
def carry (a b : Byte) : Bool := 256 ≤ a.toNat + b.toNat

/-- NOT borrow of `a - b`: 1 when `a >= b`, so 1 for equal operands (R95, R104, R105). -/
def notBorrow (a b : Byte) : Bool := b.toNat ≤ a.toNat

/-- The bit that a right shift by 1 shifts out, `s[0:0]` (R107). -/
def shiftedOutRight (b : Byte) : Bool := b.getLsbD 0

/-- The bit that a left shift by 1 shifts out, `s[7:7]` (R108). -/
def shiftedOutLeft (b : Byte) : Bool := b.getLsbD 7

/-- `VF <- 1` or `VF <- 0` (R22). -/
def State.setFlag (s : State) (b : Bool) : State := s.setReg regVF (flagByte b)

/-- The shape of the flag-writing instructions of family 8: the result to `V[X]`, THEN the flag to `VF`, so that with
`X = F` the flag stays (R96). -/
def writeWithFlag (x : RegIdx) (result : Byte) (flag : Bool) (s : State) : Host.Outcome State Fault Refusal :=
  complete .next ((s.setReg x result).setFlag flag)

/-- The shape of the instructions that write one register and no flag. -/
def writeOnly (x : RegIdx) (result : Byte) (s : State) : Host.Outcome State Fault Refusal :=
  complete .next (s.setReg x result)

/-- The shape of the skip family: `Skip` when the condition holds, else `Next` (R88). -/
def skipIf (c : Bool) (s : State) : Host.Outcome State Fault Refusal :=
  complete (if c then .skip else .next) s

end Sys2Proof.Machine
end

