-- ==== Sys2Proof/Machine/Framebuffer.lean ====
section
/-! DEFINITION. The framebuffer device: `clear` and `draw` (R123, R125, R127); `snapshot` is the field `fb` itself
(R124). -/

namespace Sys2Proof.Machine

/-- The other value of a pixel. -/
def Pixel.flip : Pixel → Pixel
  | .off => .on
  | .on => .off

namespace Framebuffer

/-- `FB[y][x]` (R17). -/
def get (fb : Framebuffer) (x : Fin 64) (y : Fin 32) : Pixel := fb[y][x]

/-- `FB[y][x] <- (if FB[y][x] = On then Off else On)` (R127). -/
def toggle (fb : Framebuffer) (x : Fin 64) (y : Fin 32) : Framebuffer :=
  fb.set y (fb[y].set x (fb[y][x]).flip)

/-- Every pixel `Off` (R125). -/
def blank : Framebuffer := Vector.replicate 32 (Vector.replicate 64 .off)

end Framebuffer

/-- `Place(px, py)`: the pixel a sprite bit lands on, `none` where it is not visible (R131). -/
def place (edge : SpriteEdge) (px py : Nat) : Option (Fin 64 × Fin 32) :=
  match edge with
  | .clip => if h : px < 64 ∧ py < 32 then some (⟨px, h.1⟩, ⟨py, h.2⟩) else none
  | .wrap => some (⟨px % 64, Nat.mod_lt _ (by decide)⟩, ⟨py % 32, Nat.mod_lt _ (by decide)⟩)

/-- One set sprite bit: it toggles the pixel it lands on, and collides where that pixel is `On` (R127, R132). -/
def drawBit (edge : SpriteEdge) (px py : Nat) (acc : Framebuffer × Bool) : Framebuffer × Bool :=
  match place edge px py with
  | none => acc
  | some (x, y) => (acc.1.toggle x y, acc.2 || decide (acc.1.get x y = .on))

/-- The columns `c`, `c+1`, ... 7 of one sprite row; bit `7 - c` is column `x0 + c` (R127, R130). `todo` counts the
columns left. -/
def drawCols (edge : SpriteEdge) (x0 py : Nat) (row : Byte) : Nat → Nat → Framebuffer × Bool → Framebuffer × Bool
  | 0, _, acc => acc
  | todo + 1, c, acc =>
    drawCols edge x0 py row todo (c + 1)
      (if row.getLsbD (7 - c) then drawBit edge (x0 + c) py acc else acc)

/-- The rows of a sprite from display row `py` downwards (R127, R130). -/
def drawRows (edge : SpriteEdge) (x0 : Nat) : List Byte → Nat → Framebuffer × Bool → Framebuffer × Bool
  | [], _, acc => acc
  | row :: rows, py, acc => drawRows edge x0 rows (py + 1) (drawCols edge x0 py row 8 0 acc)

/-- `draw(rows, (x, y)) -> collided`, from start coordinates already wrapped (R127, R129). -/
def draw (edge : SpriteEdge) (fb : Framebuffer) (rows : List Byte) (x0 y0 : Nat) : Framebuffer × Bool :=
  drawRows edge x0 rows y0 (fb, false)

/-- The framebuffer replaced. -/
def State.setFb (s : State) (fb : Framebuffer) : State := { s with fb := fb }

end Sys2Proof.Machine
end

