-- ==== Sys2Proof/Machine/Keypad.lean ====
section
/-! DEFINITION. The keypad device (R135 to R140): `get`, `find_released_key`, `reset_released_keys`; the host port `set`
is in Machine/HostPort.lean. -/

namespace Sys2Proof.Machine

/-- `get(k)` (R138). -/
def State.key (s : State) (k : Fin 16) : KeyState := s.keys[k]

/-- Does a register value name a key that is `Pressed`? A value of 16 or more names no key (R141, R142). -/
def keyPressed (s : State) (b : Byte) : Bool :=
  if h : b.toNat < 16 then decide (s.keys[b.toNat] = .pressed) else false

/-- `find_released_key()`: the lowest index whose slot is `Released` (R139). -/
def findReleased (s : State) : Option Nat := s.keys.toList.findIdx? (fun k => decide (k = .released))

/-- What the edge clear makes of one slot (R137, R140). -/
def KeyState.clearEdge : KeyState → KeyState
  | .released => .idle
  | k => k

/-- `ClearReleasedKeys()` (R137). -/
def clearReleasedKeys (s : State) : State :=
  { s with keys := ⟨(s.keys.toList.map KeyState.clearEdge).toArray, by simp⟩ }

end Sys2Proof.Machine
end

