-- ==== Sys2Proof/Machine/Timers.lean ====
section
/-! DEFINITION. The timer decay that each cycle runs (48_timers.md §1), and the end of a cycle (R70). -/

namespace Sys2Proof.Machine

/-- `1 / IPS`, the seconds one cycle stands for (R147), an exact rational. -/
def secondsPerCycle (cfg : Configuration) : Rat := 1 / (cfg.ips : Rat)

/-- `1 / 60` of a second (R10, R146). -/
def tick : Rat := 1 / (Config.timerHz : Rat)

/-- The loop of `DecayOne`, on a timer value `t` (R146): decrement while a whole interval has accumulated and the timer
is above 0; at 0 the accumulator is cleared. -/
def decayLoop : Nat → Rat → Nat × Rat
  | 0, _ => (0, 0)
  | t + 1, acc => if tick ≤ acc then decayLoop t (acc - tick) else (t + 1, acc)

/-- `DecayOne(T, acc, dt)` (R146). -/
def decayOne (t : Byte) (acc dt : Rat) : Byte × Rat :=
  if t = 0 then (0, 0)
  else
    let r := decayLoop t.toNat (acc + dt)
    (BitVec.ofNat 8 r.1, r.2)

/-- `DecayTimers(1 / IPS)`: the two timers decay independently by the same rule (R145, R146). -/
def decayTimers (s : State) : State :=
  { s with
    dt := (decayOne s.dt s.accDT (secondsPerCycle s.cfg)).1
    accDT := (decayOne s.dt s.accDT (secondsPerCycle s.cfg)).2
    st := (decayOne s.st s.accST (secondsPerCycle s.cfg)).1
    accST := (decayOne s.st s.accST (secondsPerCycle s.cfg)).2 }

/-- The state that a cycle leaves after execute: timer decay, then the edge clear (R70), and no indication kept (R81). -/
def endCycle (s : State) : State := (clearReleasedKeys (decayTimers s)).withRedraw false

end Sys2Proof.Machine
end

