-- ==== Sys2Proof/Machine/Addressing.lean ====
section
/-! DEFINITION. Address-register instructions (43_addressing.md): none checks `I` against `MEM_SIZE` (R113). -/

namespace Sys2Proof.Machine

/-- `ANNN` LD I: `I <- zext_16(NNN)` (R110). -/
def execLdIAddr (nnn : Addr) (s : State) : Host.Outcome State Fault Refusal :=
  complete .next (s.setI (zext16 nnn))

/-- `FX1E` ADD I: `I <- (I + V[X]) mod 65536`, no flag, no 12-bit mask (R112). -/
def execAddIVx (x : RegIdx) (s : State) : Host.Outcome State Fault Refusal :=
  complete .next (s.setI (s.i + zext16 (s.reg x)))

/-- `FX29` LD F: `I` points at the glyph of the low nibble of `V[X]` (R111). -/
def execLdFVx (x : RegIdx) (s : State) : Host.Outcome State Fault Refusal :=
  complete .next (s.setI (glyphAddress (s.reg x)))

end Sys2Proof.Machine
end

