-- ==== Sys2Proof/Machine/Arith.lean ====
section
/-! DEFINITION. Moves, arithmetic, logic and shifts (42_moves_arith.md): 8-bit unsigned, results modulo 256 (R95). -/

namespace Sys2Proof.Machine

/-- `6XNN` LD: `V[X] <- NN` (R97). -/
def execLdVxByte (x : RegIdx) (nn : Byte) (s : State) : Host.Outcome State Fault Refusal :=
  writeOnly x nn s

/-- `7XNN` ADD: `V[X] <- (V[X] + NN) mod 256`, no flag (R98). -/
def execAddVxByte (x : RegIdx) (nn : Byte) (s : State) : Host.Outcome State Fault Refusal :=
  writeOnly x (s.reg x + nn) s

/-- `8XY0` LD: `V[X] <- V[Y]` (R99). -/
def execLdVxVy (x y : RegIdx) (s : State) : Host.Outcome State Fault Refusal :=
  writeOnly x (s.reg y) s

/-- `8XY1` OR, no flag (R100). -/
def execOrVxVy (x y : RegIdx) (s : State) : Host.Outcome State Fault Refusal :=
  writeOnly x (s.reg x ||| s.reg y) s

/-- `8XY2` AND, no flag (R101). -/
def execAndVxVy (x y : RegIdx) (s : State) : Host.Outcome State Fault Refusal :=
  writeOnly x (s.reg x &&& s.reg y) s

/-- `8XY3` XOR, no flag (R102). -/
def execXorVxVy (x y : RegIdx) (s : State) : Host.Outcome State Fault Refusal :=
  writeOnly x (s.reg x ^^^ s.reg y) s

/-- `8XY4` ADD: the sum modulo 256, `VF` = carry (R103). -/
def execAddVxVy (x y : RegIdx) (s : State) : Host.Outcome State Fault Refusal :=
  writeWithFlag x (s.reg x + s.reg y) (carry (s.reg x) (s.reg y)) s

/-- `8XY5` SUB: `V[X] - V[Y]` modulo 256, `VF` = NOT borrow (R104). -/
def execSubVxVy (x y : RegIdx) (s : State) : Host.Outcome State Fault Refusal :=
  writeWithFlag x (s.reg x - s.reg y) (notBorrow (s.reg x) (s.reg y)) s

/-- `8XY7` SUBN: `V[Y] - V[X]` modulo 256, `VF` = NOT borrow (R105). -/
def execSubnVxVy (x y : RegIdx) (s : State) : Host.Outcome State Fault Refusal :=
  writeWithFlag x (s.reg y - s.reg x) (notBorrow (s.reg y) (s.reg x)) s

/-- `8XY6` SHR: the shift operand shifted right by 1, `VF` = the bit shifted out (R106, R107). -/
def execShrVxVy (x y : RegIdx) (s : State) : Host.Outcome State Fault Refusal :=
  writeWithFlag x (shiftOperand s x y >>> 1) (shiftedOutRight (shiftOperand s x y)) s

/-- `8XYE` SHL: the shift operand shifted left by 1, `VF` = the bit shifted out (R106, R108). -/
def execShlVxVy (x y : RegIdx) (s : State) : Host.Outcome State Fault Refusal :=
  writeWithFlag x (shiftOperand s x y <<< 1) (shiftedOutLeft (shiftOperand s x y)) s

end Sys2Proof.Machine
end

