-- ==== Sys2Proof/Machine/Bulk.lean ====
section
/-! DEFINITION. BCD and bulk register transfer (45_bcd_bulk.md). None changes `I`. -/

namespace Sys2Proof.Machine

/-- The shape of the storing instructions: `MemWrite(I, bytes); return Next`, or the fault with nothing written
(R118, R119). -/
def storeAtI (bytes : List Byte) (s : State) : Host.Outcome State Fault Refusal :=
  match memWrite s s.i.toNat bytes with
  | .error f => raise f
  | .ok t => complete .next t

/-- `FX33` LD B: store the decimal digits of `V[X]` at `I`, `I+1`, `I+2` (R118). -/
def execLdBVx (x : RegIdx) (s : State) : Host.Outcome State Fault Refusal :=
  storeAtI (bcdDigits (s.reg x)) s

/-- `FX55` LD [I]: store `V0` to `V[X]` at `I` (R119). -/
def execLdMemVx (x : RegIdx) (s : State) : Host.Outcome State Fault Refusal :=
  storeAtI (dumpBytes s x) s

/-- `FX65` LD Vx, [I]: load `V0` to `V[X]` from `I` (R120). -/
def execLdVxMem (x : RegIdx) (s : State) : Host.Outcome State Fault Refusal :=
  match memRead s s.i.toNat (bulkCount x) with
  | .error f => raise f
  | .ok bytes => complete .next (s.loadRegs bytes)

end Sys2Proof.Machine
end

