-- ==== Sys2Proof/Machine/ControlFlow.lean ====
section
/-! DEFINITION. Control flow instructions (41_control_flow.md). `PC` is the address of the instruction itself (R73). -/

namespace Sys2Proof.Machine

/-- `1NNN` JP: `return Jump(zext_16(NNN))` (R85). -/
def execJpAddr (nnn : Addr) (s : State) : Host.Outcome State Fault Refusal :=
  complete (.jump (zext16 nnn)) s

/-- `2NNN` CALL: push the address of this CALL and jump; a full stack raises `StackOverflow(PC)` (R86, R158). -/
def execCallAddr (nnn : Addr) (s : State) : Host.Outcome State Fault Refusal :=
  if Config.stackDepth ≤ s.sp.toNat then raise (.stackOverflow s.pc)
  else complete (.jump (zext16 nnn)) (s.push s.pc)

/-- `00EE` RET: pop and resume after the CALL that made the entry; an empty stack raises `StackUnderflow(PC)`
(R87, R159). -/
def execRet (s : State) : Host.Outcome State Fault Refusal :=
  if s.sp = 0 then raise (.stackUnderflow s.pc)
  else complete (.jump (s.stackTop + 2)) s.pop

/-- `3XNN` SE: skip if `V[X] = NN` (R88). -/
def execSeVxByte (x : RegIdx) (nn : Byte) (s : State) : Host.Outcome State Fault Refusal :=
  skipIf (s.reg x = nn) s

/-- `4XNN` SNE: skip if `V[X] ≠ NN` (R89). -/
def execSneVxByte (x : RegIdx) (nn : Byte) (s : State) : Host.Outcome State Fault Refusal :=
  skipIf (s.reg x ≠ nn) s

/-- `5XY0` SE: skip if `V[X] = V[Y]` (R90). -/
def execSeVxVy (x y : RegIdx) (s : State) : Host.Outcome State Fault Refusal :=
  skipIf (s.reg x = s.reg y) s

/-- `9XY0` SNE: skip if `V[X] ≠ V[Y]` (R91). -/
def execSneVxVy (x y : RegIdx) (s : State) : Host.Outcome State Fault Refusal :=
  skipIf (s.reg x ≠ s.reg y) s

/-- `BNNN` JP V0: `return Jump(zext_16(NNN) + V[0])` (R92). -/
def execJpV0Addr (nnn : Addr) (s : State) : Host.Outcome State Fault Refusal :=
  complete (.jump (indirectTarget s nnn)) s

end Sys2Proof.Machine
end

