-- ==== Sys2Proof/Machine/Display.lean ====
section
/-! DEFINITION. The display instructions (46_display.md §1 and §2). -/

namespace Sys2Proof.Machine

/-- `00E0` CLS: `clear(); return (Next, redraw = true)` (R126). -/
def execCls (s : State) : Host.Outcome State Fault Refusal :=
  completeRedraw .next (s.setFb Framebuffer.blank)

/-- The blit of `DXYN` from rows already read: the display changed, then `VF` = collision (R128). -/
def drawSprite (x y : RegIdx) (rows : List Byte) (s : State) : State :=
  let r := draw s.cfg.spriteEdge s.fb rows (startColumn s x) (startRow s y)
  (s.setFb r.1).setFlag r.2

/-- `DXYN` DRW: read `N` rows at `I`, draw them at `(V[X], V[Y])`, `VF` = collision; the registers are read before `VF`
is written, and a read past the end of memory changes nothing (R128). -/
def execDrwVxVyNibble (x y : RegIdx) (n : Nibble) (s : State) : Host.Outcome State Fault Refusal :=
  match memRead s s.i.toNat n.val with
  | .error f => raise f
  | .ok rows => completeRedraw .next (drawSprite x y rows s)

end Sys2Proof.Machine
end

