-- ==== Sys2Proof/Machine/Keys.lean ====
section
/-! DEFINITION. The key instructions (47_keypad.md §2). -/

namespace Sys2Proof.Machine

/-- `EX9E` SKP: skip if the key named by `V[X]` is `Pressed` (R141). -/
def execSkpVx (x : RegIdx) (s : State) : Host.Outcome State Fault Refusal :=
  skipIf (keyPressed s (s.reg x)) s

/-- `EXA1` SKNP: skip if the key named by `V[X]` is not `Pressed` (R142). -/
def execSknpVx (x : RegIdx) (s : State) : Host.Outcome State Fault Refusal :=
  skipIf (!keyPressed s (s.reg x)) s

/-- `FX0A` LD Vx, K: write the lowest `Released` key and go on, else `Repeat` (R143). -/
def execLdVxK (x : RegIdx) (s : State) : Host.Outcome State Fault Refusal :=
  match findReleased s with
  | some k => complete .next (s.setReg x (BitVec.ofNat 8 k))
  | none => complete .again s

end Sys2Proof.Machine
end

