-- ==== Sys2Proof/Machine/Random.lean ====
section
/-! DEFINITION. The random-number instruction (44_random.md). -/

namespace Sys2Proof.Machine

/-- `CXNN` RND: draw one byte and write `r AND NN`; a draw happens whatever `NN` is (R115, R117). -/
def execRndVxByte (x : RegIdx) (nn : Byte) (s : State) : Host.Outcome State Fault Refusal :=
  complete .next (s.afterDraw.setReg x (s.nextDraw &&& nn))

end Sys2Proof.Machine
end

