-- ==== Sys2Proof/Machine/TimerInstrs.lean ====
section
/-! DEFINITION. The timer instructions (48_timers.md §2). The decay of the same cycle runs after them (R70, R181). -/

namespace Sys2Proof.Machine

/-- `FX07` LD Vx, DT: `V[X] <- DT` (R149). -/
def execLdVxDT (x : RegIdx) (s : State) : Host.Outcome State Fault Refusal :=
  writeOnly x s.dt s

/-- `FX15` LD DT, Vx: `DT <- V[X]; accDT <- 0` (R150). -/
def execLdDTVx (x : RegIdx) (s : State) : Host.Outcome State Fault Refusal :=
  complete .next (s.setDT (s.reg x))

/-- `FX18` LD ST, Vx: `ST <- V[X]; accST <- 0` (R151). -/
def execLdSTVx (x : RegIdx) (s : State) : Host.Outcome State Fault Refusal :=
  complete .next (s.setST (s.reg x))

end Sys2Proof.Machine
end

