-- ==== Sys2Proof/Machine/Cycle.lean ====
section
/-! DEFINITION. One cycle and its result (R70, R77, R81). -/

namespace Sys2Proof.Machine

/-- What a cycle returns to its caller (R70, R77), and the state it leaves. -/
inductive CycleResult
  /-- `Ok(redraw)`: the indication the instruction returned is in this result and nowhere else (R81). -/
  | ok (redraw : Bool) (s : State)
  /-- The fault; the state is the one before the cycle (R76). -/
  | fault (f : Fault)
  /-- An instruction without a meaning in the model: never answered, since every instruction is modelled. -/
  | refused (r : Refusal)
  deriving DecidableEq, Repr

/-- `Cycle()`, and so the host's `step()`: fetch, decode, execute with the PC action, timer decay, edge clear, and
`return Ok(redraw)` (R70, R77). A fault at any stage ends the cycle with the state as it was (R76); the first fault in cycle
order is the one reported (R160). -/
def cycle (s : State) : CycleResult :=
  match fetch s with
  | .error f => .fault f
  | .ok w =>
    match decode w with
    | .error _ => .fault (.invalidOpcode w s.pc)
    | .ok i =>
      match exec i s with
      | .next t => .ok t.redraw (endCycle t)
      | .fault f => .fault f
      | .refused r => .refused r

/-- A cycle's result as the host's interface has it, which has no place for the indication (log entry 5). -/
def CycleResult.outcome : CycleResult → Host.Outcome State Fault Refusal
  | .ok _ t => .next t
  | .fault f => raise f
  | .refused r => .refused r

end Sys2Proof.Machine
end

