-- ==== Sys2Proof/Machine/Step.lean ====
section
/-! DEFINITION. One cycle (R70, R77) and the word the next cycle fetches. -/

namespace Sys2Proof.Machine

/-- `step()` as the host's interface has it: one cycle (R70, R77), its next state or its fault; `cycle` has the `redraw` of
its result as well. -/
def step (s : State) : Host.Outcome State Fault Refusal := (cycle s).outcome

/-- The state with an instruction word stored where `step` fetches next: the two bytes at `PC` and `PC+1` (R71). Where
`PC + 2` exceeds `MEM_SIZE` there is no such place and the state is returned as it is. Log entry 9. -/
def State.withFetchWord (s : State) (nbits w : Nat) : State :=
  if s.pc.toNat + Config.instrWidth > Config.memSize then s
  else s.setBytes s.pc.toNat (bytesOfWord (BitVec.ofNat 16 (w % 2 ^ nbits)))

end Sys2Proof.Machine
end

