-- ==== Sys2Proof/Machine/HostPort.lean ====
section
/-! DEFINITION. The host's ports, each a function of the state called wholly between cycles (R82): `advance` and
`set_rate` (40_cycle.md §2), the key port (R136), program load (R174), reset (R170), and the outputs (R124, R153). -/

namespace Sys2Proof.Machine

/-- The two inputs the host ports refuse, with no state change (R164). -/
inductive HostError
  /-- `set(k, t)` with `k > 15` (R136). -/
  | keyOutOfRange
  /-- `set_rate(0)` (R80). -/
  | zeroRate
  deriving DecidableEq, Repr

/-- What the host may post to a key slot; it "cannot post Idle" (R136). -/
inductive KeyPost
  | pressed
  | released
  deriving DecidableEq, Repr

/-- The slot value a post writes (R136). -/
def KeyPost.slot : KeyPost → KeyState
  | .pressed => .pressed
  | .released => .released

/-- `set(k, t)`: unconditional, from any prior state; a key above 15 is refused (R136). -/
def setKey (k : Nat) (t : KeyPost) (s : State) : Except HostError State :=
  if h : k < 16 then .ok { s with keys := s.keys.set k t.slot } else .error .keyOutOfRange

/-- `set_rate(r)`: changes `IPS` and neither `clockAcc` nor the timer accumulators; 0 is refused (R80, R148). -/
def setRate (r : Nat) (s : State) : Except HostError State :=
  if r = 0 then .error .zeroRate else .ok { s with cfg := { s.cfg with ips := r } }

/-- `load(bytes)`: `MemWrite(PROGRAM_BASE, bytes)`, all or nothing, and nothing else changes (R174, R175). -/
def load (bytes : List Byte) (s : State) : Except Fault State := memWrite s Config.programBase bytes

/-- `reset()`: every piece of state at its reset value; the configuration and the random source are kept
(R170, R172). -/
def hostReset (s : State) : State := { State.construct s.cfg with rng := s.rng }

/-- A test injects the bytes the next draws give (R16, log entry 4). -/
def injectRandom (bytes : List Byte) (s : State) : State := { s with rng := { s.rng with injected := bytes } }

/-- `sound_on = (ST ≠ 0)` (R153). -/
def State.soundOn (s : State) : Bool := s.st ≠ 0

/-- `snapshot()`: the full pixel grid (R124). -/
def State.snapshot (s : State) : Framebuffer := s.fb

/-! ### `advance` -/

/-- `P = 1_000_000 / IPS`, the exact microseconds per instruction (R34, R78). -/
def microsPerInstruction (s : State) : Rat := 1000000 / (s.cfg.ips : Rat)

/-- What `advance` returns: the cycles it completed, the OR of their redraw indications, and the state it leaves
(R78, R79, R81). -/
inductive AdvanceResult
  /-- `Ok(n, redraw)`. -/
  | ok (n : Nat) (redraw : Bool) (s : State)
  /-- `Fault(F, n, redraw)`. -/
  | fault (f : Fault) (n : Nat) (redraw : Bool) (s : State)
  /-- A cycle without a meaning in the model: never answered, since every instruction is modelled. -/
  | refused (r : Refusal) (n : Nat) (redraw : Bool) (s : State)
  deriving DecidableEq, Repr

/-- One whole instruction period is taken from `clockAcc` (R78). -/
def State.takePeriod (t : State) (p : Rat) : State := { t with clockAcc := t.clockAcc - p }

/-- The loop of `advance` (R78, R79); `fuel` bounds the cycles, `n` counts those completed. -/
def advanceLoop : Nat → Nat → Bool → State → AdvanceResult
  | 0, n, redraw, s => .ok n redraw s
  | fuel + 1, n, redraw, s =>
    if microsPerInstruction s ≤ s.clockAcc then
      match cycle s with
      | .ok r t => advanceLoop fuel (n + 1) (redraw || r) (t.takePeriod (microsPerInstruction s))
      | .fault f => .fault f n redraw s
      | .refused r => .refused r n redraw s
    else .ok n redraw s

/-- How many whole periods `clockAcc` holds, the number of cycles an `advance` that does not fault runs (R78). -/
def cyclesDue (s : State) : Nat := (s.clockAcc / microsPerInstruction s).floor.toNat

/-- The elapsed microseconds added to `clockAcc` (R78). -/
def State.addElapsed (s : State) (e : Nat) : State := { s with clockAcc := s.clockAcc + (e : Rat) }

/-- `advance(e)`: as many whole cycles as the accumulated time allows, carrying the remainder (R78). -/
def advance (e : Nat) (s : State) : AdvanceResult :=
  advanceLoop (cyclesDue (s.addElapsed e)) 0 false (s.addElapsed e)

/-- The state an `advance` leaves, whatever it returned (R79). -/
def AdvanceResult.state : AdvanceResult → State
  | .ok _ _ s | .fault _ _ _ s | .refused _ _ _ s => s

/-! ### Every host call -/

/-- Everything the outside world can do to the machine, each wholly before or after any cycle (R82). -/
inductive HostCall
  | step
  | advance (e : Nat)
  | setRate (r : Nat)
  | setKey (k : Nat) (t : KeyPost)
  | load (bytes : List Byte)
  | reset
  | injectRandom (bytes : List Byte)
  deriving DecidableEq, Repr

/-- The state after a host call. A faulting cycle changes nothing (R76), a refused input changes nothing (R164), and a
load that does not fit changes nothing (R174). -/
def afterCall (c : HostCall) (s : State) : State :=
  match c with
  | .step =>
    match step s with
    | .next t => t
    | .fault _ => s
    | .refused _ => s
  | .advance e => (Sys2Proof.Machine.advance e s).state
  | .setRate r => (Sys2Proof.Machine.setRate r s).toOption.getD s
  | .setKey k t => (Sys2Proof.Machine.setKey k t s).toOption.getD s
  | .load bytes => (Sys2Proof.Machine.load bytes s).toOption.getD s
  | .reset => hostReset s
  | .injectRandom bytes => Sys2Proof.Machine.injectRandom bytes s

end Sys2Proof.Machine
end

