-- ==== Sys2Proof/Safety.lean ====
section
/-! DEFINITION. What claims are stated in: the legal states of the machine, the parts of the state and the frame of an
instruction, and what a safe run is. -/

namespace Sys2Proof.Machine

/-- A timer and its accumulator are legal: `0 <= acc < 1/60`, and `acc = 0` whenever the timer is 0 (R29, R146). -/
structure TimerLegal (t : Byte) (acc : Rat) : Prop where
  nonneg  : 0 ≤ acc
  below   : acc < tick
  stopped : t = 0 → acc = 0

/-- What `m` decays at `1 / ips` make of a timer that was set to `N` with its accumulator cleared: the timer has lost the whole
sixtieths of `m / ips` seconds, never passing 0, and while it runs the accumulator holds the rest of the time (R146, R154). -/
structure DecayedFrom (N ips m : Nat) (t : Byte) (acc : Rat) : Prop where
  value : t.toNat = N - 60 * m / ips
  rest  : 60 * m / ips < N → acc = (m : Rat) / ips - ((60 * m / ips : Nat) : Rat) / 60

/-- The legal states, which hold at construction and which every cycle and every host call keep. -/
structure State.Inv (s : State) : Prop where
  /-- `PC` never passes the highest jump target, so the modulus of R75 never takes effect. -/
  pcBound : s.pc.toNat ≤ 0x10FE
  /-- Every stack entry is the address of a CALL that was fetched (R75, R86). -/
  callers : ∀ k : Fin 16, s.stack[k].toNat ≤ 0xFFE
  /-- `SP` is in `0..STACK_DEPTH` (R25). -/
  spBound : s.sp.toNat ≤ Config.stackDepth
  /-- Memory is in its canonical form and lists no address outside memory (R40). -/
  memory  : Memory.wf s.cfg.glyphs s.mem = true
  /-- `IPS` is a positive integer (R12). -/
  rate    : 0 < s.cfg.ips
  /-- The delay timer and its accumulator (R29, R146). -/
  delay   : TimerLegal s.dt s.accDT
  /-- The sound timer and its accumulator (R29, R146). -/
  sound   : TimerLegal s.st s.accST
  /-- `clockAcc` is non-negative (R33). -/
  clock   : 0 ≤ s.clockAcc
  /-- No indication is stored between calls (R81). -/
  quiet   : s.redraw = false

/-- The parts of the state, the smallest that the spec reads or writes on their own. -/
inductive Part
  | reg (x : RegIdx)
  | i
  | pc
  | sp
  | stackEntry (k : Fin 16)
  | dt
  | st
  | accDT
  | accST
  | byte (a : Nat)
  | pixel (x : Fin 64) (y : Fin 32)
  | key (k : Fin 16)
  | clockAcc
  | configuration
  | rng
  | redraw
  deriving DecidableEq, Repr

/-- A part has the same value in two states; a byte of memory by the model's read of one byte. -/
def Part.same (s t : State) : Part → Prop
  | .reg x => t.reg x = s.reg x
  | .i => t.i = s.i
  | .pc => t.pc = s.pc
  | .sp => t.sp = s.sp
  | .stackEntry k => t.stack[k] = s.stack[k]
  | .dt => t.dt = s.dt
  | .st => t.st = s.st
  | .accDT => t.accDT = s.accDT
  | .accST => t.accST = s.accST
  | .byte a => t.byteAt a = s.byteAt a
  | .pixel x y => t.fb.get x y = s.fb.get x y
  | .key k => t.key k = s.key k
  | .clockAcc => t.clockAcc = s.clockAcc
  | .configuration => t.cfg = s.cfg
  | .rng => t.rng = s.rng
  | .redraw => t.redraw = s.redraw

/-- The frame: every part but those named has the same value after as before. -/
def KeepsAllBut (written : Part → Prop) (s t : State) : Prop := ∀ p : Part, ¬ written p → p.same s t

/-- The program counter and the redraw indication, which every completed instruction sets (R73, R74, R133). -/
def Part.sequencing (p : Part) : Prop := p = .pc ∨ p = .redraw

/-- The `n` bytes of memory from an address. -/
def Part.bytesFrom (addr n : Nat) (p : Part) : Prop := ∃ a, addr ≤ a ∧ a < addr + n ∧ p = .byte a

/-- `PC` after an instruction that returns `Next` (R75). -/
def State.nextPc (s : State) : Word := s.pc + 2

/-- `PC` after an instruction that returns `Skip` (R75). -/
def State.skipPc (s : State) : Word := s.pc + 4

/-- The instruction completes: `exec` answers a next state, and that state is as described. -/
def Completes (i : Instr) (s : State) (post : State → Prop) : Prop :=
  ∃ t, exec i s = .next t ∧ post t

/-- The instruction's opcode is the word given, and that word decodes to it. -/
def HasOpcode (i : Instr) (w : Word) : Prop := encode i = w ∧ decode w = .ok i

/-- `X<<8` as the encoding lines of the rules write it (R56). -/
def atX (x : RegIdx) : Word := BitVec.ofNat 16 (x.val * 256)

/-- `Y<<4` as the encoding lines of the rules write it (R56). -/
def atY (y : RegIdx) : Word := BitVec.ofNat 16 (y.val * 16)

/-- The count `N` in its place in an opcode (R56). -/
def atN (n : Nibble) : Word := BitVec.ofNat 16 n.val

/-- The word that the two bytes at `PC` and `PC+1` form (R45, R71). -/
def State.wordAtPc (s : State) : Word := wordOfBytes (s.byteAt s.pc.toNat) (s.byteAt (s.pc.toNat + 1))

/-- The next cycle fetches, without a fault, a word that decodes to the instruction (R71, R72). -/
def State.About (s : State) (i : Instr) : Prop :=
  s.pc.toNat + 2 ≤ Config.memSize ∧ decode s.wordAtPc = .ok i

/-- The set bit of sprite row `r`, column `c` (R130). -/
def SpriteBit (rows : List Byte) (r c : Nat) : Prop :=
  ∃ row, rows[r]? = some row ∧ c < 8 ∧ row.getLsbD (7 - c) = true

/-- Where the bit of row `r`, column `c` of a sprite started at `(x0, y0)` lands, `CLIP` dropping what lies past an edge and
`WRAP` bringing it to the opposite side (R131). -/
def LandsOn (edge : SpriteEdge) (x0 y0 r c : Nat) (px : Fin 64) (py : Fin 32) : Prop :=
  match edge with
  | .clip => x0 + c = px.val ∧ y0 + r = py.val
  | .wrap => (x0 + c) % 64 = px.val ∧ (y0 + r) % 32 = py.val

/-- Some set bit of the sprite lands on the pixel. -/
def Covered (edge : SpriteEdge) (rows : List Byte) (x0 y0 : Nat) (px : Fin 64) (py : Fin 32) : Prop :=
  ∃ r c, SpriteBit rows r c ∧ LandsOn edge x0 y0 r c px py

/-- The OR of the redraw indications of the first `n` cycles from a state (R81). -/
def redrawSeen : Nat → State → Bool
  | 0, _ => false
  | n + 1, s =>
    match cycle s with
    | .ok r t => r || redrawSeen n t
    | .fault _ => false
    | .refused _ => false

/-- A run of `n` cycles is safe when none of them faults: "a host wrapping this core is expected to stop cycle
advancement on any fault" (R162). -/
def safeRun (n : Nat) (s : State) : Prop := ∃ t, Sys2Proof.core.run n s = .next t

/-- A state with another value in `clockAcc`. -/
def State.withClock (s : State) (c : Rat) : State := { s with clockAcc := c }

/-- A state with another value in `ST` and its accumulator. -/
def State.withSound (s : State) (b : Byte) (acc : Rat) : State := { s with st := b, accST := acc }

/-- What an outcome becomes when its next state is changed by `f`. -/
def mapNext (f : State → State) : Host.Outcome State Fault Refusal → Host.Outcome State Fault Refusal
  | .next t => .next (f t)
  | .fault e => .fault e
  | .refused r => .refused r

end Sys2Proof.Machine
end

