-- ==== Sys2Proof/Certificates/Slice0/Obligations.lean ====
section
/-! DEFINITION. The statements for the provers. Each docstring names the rules of spec/ it formalises. In the next
state of `exec` the field `redraw` is the indication that the instruction returned (R73, R133), on its way to the result of the
cycle; a cycle returns it and stores none (R81, log entry 5). A fault is an outcome without a state: the state after it is the
state before it (R76, log entry 7). -/

open Sys2Proof Sys2Proof.Machine

/-! ## Encoding -/

/-- Decoding the opcode of any instruction, every operand at every value its field admits, gives the instruction back
(R58, R59, R69). -/
def Obligations.DecodeOfEncode : Prop :=
  ∀ i : Instr, i.wellFormed = true ∧ decode (encode i) = .ok i

/-- A word that decodes has no bit that the instruction does not carry: encoding what it decodes to gives the word. -/
def Obligations.EncodeOfDecode : Prop :=
  ∀ (w : Word) (i : Instr), decode w = .ok i → encode i = w

/-- Every word has one of two verdicts, and the invalid words are those of the table of R64, family 0 being R63. -/
def Obligations.InvalidWordsByFamily : Prop :=
  ∀ w : Word,
    ((∃ i, decode w = .ok i) ∨ decode w = .error (.invalidOpcode w)) ∧
    (decode w = .error (.invalidOpcode w) ↔
      let op := w.toNat / 4096
      let n := w.toNat % 16
      let nn := w.toNat % 256
      (op = 0x0 ∧ w ≠ 0x00E0 ∧ w ≠ 0x00EE) ∨
      (op = 0x5 ∧ n ≠ 0) ∨
      (op = 0x8 ∧ n ∈ [0x8, 0x9, 0xA, 0xB, 0xC, 0xD, 0xF]) ∨
      (op = 0x9 ∧ n ≠ 0) ∨
      (op = 0xE ∧ nn ∉ [0x9E, 0xA1]) ∨
      (op = 0xF ∧ nn ∉ [0x07, 0x0A, 0x15, 0x18, 0x1E, 0x29, 0x33, 0x55, 0x65]))

/-- Words written out from the encodings decode to the instruction they stand for; the words §2.1 of the test vectors calls
invalid are refused. -/
def Obligations.WrittenOutWordsDecode : Prop :=
  decode 0x600A = .ok (.ldVxByte 0 0x0A) ∧ decode 0x7005 = .ok (.addVxByte 0 0x05) ∧
  decode 0x00E0 = .ok .cls ∧ decode 0x00EE = .ok .ret ∧ decode 0x230A = .ok (.callAddr 0x30A) ∧
  decode 0x8AB4 = .ok (.addVxVy 0xA 0xB) ∧ decode 0xD12F = .ok (.drwVxVyNibble 1 2 15) ∧
  decode 0xE2A1 = .ok (.sknpVx 2) ∧ decode 0xF365 = .ok (.ldVxMem 3) ∧
  decode 0x0123 = .error (.invalidOpcode 0x0123) ∧ decode 0x5121 = .error (.invalidOpcode 0x5121)

/-- The rows of the opcode table are unambiguous: a word belongs to an instruction's row exactly when it decodes to an
instruction of that row. -/
def Obligations.TableRowsUnambiguous : Prop :=
  ∀ (w : Word) (j : Instr), j.row.covers w = true ↔ ∃ i, decode w = .ok i ∧ i.row = j.row

/-! ## The cycle -/

/-- A cycle is fetch, decode, execute, timer decay, edge clear, in that order, the first fault ending it; the word is the byte at
`PC` times 256 plus the byte at `PC + 1`; a completed cycle returns the indication of its instruction and stores none
(R45, R70, R71, R72, R81); and `step` is one cycle (R77). -/
def Obligations.StepRunsDecodedInstruction : Prop :=
  ∀ s : State,
    s.wordAtPc.toNat = (s.byteAt s.pc.toNat).toNat * 256 + (s.byteAt (s.pc.toNat + 1)).toNat ∧
    (s.pc.toNat + 2 > 4096 →
      cycle s = .fault (.memoryFault s.pc.toNat 2 s.pc) ∧ step s = .fault (.memoryFault s.pc.toNat 2 s.pc)) ∧
    (s.pc.toNat + 2 ≤ 4096 →
      (decode s.wordAtPc = .error (.invalidOpcode s.wordAtPc) →
        cycle s = .fault (.invalidOpcode s.wordAtPc s.pc) ∧ step s = .fault (.invalidOpcode s.wordAtPc s.pc)) ∧
      (∀ i, decode s.wordAtPc = .ok i →
        (∀ t, exec i s = .next t →
          let u := (clearReleasedKeys (decayTimers t)).withRedraw false
          cycle s = .ok t.redraw u ∧ step s = .next u) ∧
        (∀ f, exec i s = .fault f → cycle s = .fault f ∧ step s = .fault f)))

/-- How a program's word comes to run: storing an instruction's opcode at `PC`, bits 15..8 at `PC` and bits 7..0 at
`PC + 1` (R45), makes the next step run it. -/
def Obligations.StoredWordIsRun : Prop :=
  ∀ (s : State) (i : Instr), s.pc.toNat + 2 ≤ 4096 →
    let t := s.withFetchWord 16 (encode i).toNat
    decodeTableWord 16 (encode i).toNat = some i ∧ t.About i ∧
    (t.byteAt s.pc.toNat).toNat = (encode i).toNat / 256 ∧
    (t.byteAt (s.pc.toNat + 1)).toNat = (encode i).toNat % 256 ∧
    KeepsAllBut (Part.bytesFrom s.pc.toNat 2) s t

/-- The decay of one timer: the loop of `DecayOne`, one round at a time, and its result's range; `DecayTimers` applies it to both
timers with `1 / IPS`, neither affecting the other, and a cycle that completes leaves in each timer and accumulator what it makes
of the values that the instruction left (R145, R146). -/
def Obligations.DecayFollowsItsLoop : Prop :=
  (∀ (t : Byte) (acc dt : Rat),
    (t = 0 → decayOne t acc dt = (0, 0)) ∧
    (t ≠ 0 → acc + dt < 1 / 60 → decayOne t acc dt = (t, acc + dt)) ∧
    (t ≠ 0 → 1 / 60 ≤ acc + dt → decayOne t acc dt = decayOne (t - 1) (acc - 1 / 60) dt) ∧
    (0 ≤ acc → 0 ≤ dt →
      0 ≤ (decayOne t acc dt).2 ∧ (decayOne t acc dt).2 < 1 / 60 ∧
      ((decayOne t acc dt).1 = 0 → (decayOne t acc dt).2 = 0))) ∧
  (∀ t : State,
    decayOne t.dt t.accDT (1 / (t.cfg.ips : Rat)) = ((decayTimers t).dt, (decayTimers t).accDT) ∧
    decayOne t.st t.accST (1 / (t.cfg.ips : Rat)) = ((decayTimers t).st, (decayTimers t).accST) ∧
    KeepsAllBut (fun p => p = .dt ∨ p = .accDT ∨ p = .st ∨ p = .accST) t (decayTimers t)) ∧
  (∀ (i : Instr) (s t : State), s.About i → exec i s = .next t →
    ∃ u, step s = .next u ∧
      decayOne t.dt t.accDT (1 / (t.cfg.ips : Rat)) = (u.dt, u.accDT) ∧
      decayOne t.st t.accST (1 / (t.cfg.ips : Rat)) = (u.st, u.accST))

/-- The decay in closed form: with `q` whole sixtieths in the accumulated time, a timer loses `q`, never passing 0, and
keeps the rest of the time unless it stopped. -/
def Obligations.DecayInClosedForm : Prop :=
  ∀ (t : Byte) (acc dt : Rat), t ≠ 0 → 0 ≤ acc → 0 ≤ dt →
    let q := ((acc + dt) * 60).floor.toNat
    (decayOne t acc dt).1.toNat = t.toNat - q ∧
    (decayOne t acc dt).2 = if t.toNat ≤ q then 0 else acc + dt - (q : Rat) / 60

/-- At the end of every cycle that does not fault, a slot that was `Released` is `Idle` and every other slot is as it was,
whatever the instruction, a `Repeat` cycle included (R137). -/
def Obligations.EdgesClearedEveryCycle : Prop :=
  (∀ t : State, KeepsAllBut (fun p => ∃ k, p = .key k) t (clearReleasedKeys t)) ∧
  ∀ s t : State, step s = .next t → ∀ k : Fin 16,
    t.key k = if s.key k = .released then .idle else s.key k

/-- The redraw indication is an output: a cycle that completes returns true exactly when its instruction is `00E0` or `DXYN`, which
is the value that instruction returned, and the state it leaves stores none; and no cycle reads a stored one. The second clause
compares two runs from states whose random sources are equal, which draw the same byte (log entry 4); the field that carries the
indication within a cycle is the model's own (log entry 5) (R77, R81, R133). -/
def Obligations.RedrawIsAnOutput : Prop :=
  (∀ (s t : State) (r : Bool), cycle s = .ok r t →
    t.redraw = false ∧
    ∃ i u, s.About i ∧ exec i s = .next u ∧ r = u.redraw ∧
      (r = true ↔ i = .cls ∨ ∃ x y n, i = .drwVxVyNibble x y n)) ∧
  (∀ (s : State) (b : Bool), cycle (s.withRedraw b) = cycle s)

/-! ## Reset and the legal states -/

/-- The state that reset leaves, part by part (R170); the configuration is kept and the random source is not rewound
(R172). Construction gives the same state (R171): that clause equates whole states, so it takes in the two fields that are the
model's own at the values the model gives them, the random source (log entry 4) and `redraw` (log entry 5). -/
def Obligations.ResetValues : Prop :=
  (∀ s : State,
    let t := hostReset s
    (∀ x, t.reg x = 0) ∧ t.i = 0 ∧ t.pc = 0x200 ∧ t.sp = 0 ∧ (∀ k : Fin 16, t.stack[k] = 0) ∧
    t.dt = 0 ∧ t.st = 0 ∧ t.accDT = 0 ∧ t.accST = 0 ∧ t.clockAcc = 0 ∧
    (∀ a : Fin 80, t.byteAt a = s.cfg.glyphs[a]) ∧ (∀ a, 80 ≤ a → a < 4096 → t.byteAt a = 0) ∧
    (∀ x y, t.fb.get x y = .off) ∧ (∀ k, t.key k = .idle) ∧ t.cfg = s.cfg ∧ t.rng = s.rng) ∧
  (∀ cfg : Configuration, hostReset (State.construct cfg) = State.construct cfg)

/-- The state after reset is a legal state, and resetting it again leaves it as it is, the random source and `redraw` at
the model's own values included (log entries 4, 5). -/
def Obligations.ResetIsLegal : Prop := State.reset.Inv ∧ hostReset State.reset = State.reset

/-- From every legal state, a cycle that does not fault leads to a legal state. -/
def Obligations.StepKeepsLegal : Prop :=
  ∀ s t : State, s.Inv → step s = .next t → t.Inv

/-- From every legal state, every host call, whatever its arguments and whether it faults, is refused or succeeds, leads to a
legal state. -/
def Obligations.HostCallsKeepLegal : Prop :=
  ∀ (c : HostCall) (s : State), s.Inv → (afterCall c s).Inv

/-- "The modulus never takes effect": in a legal state whose fetch does not fault, no PC arithmetic of the cycle wraps, and the
new `PC` is at most `0x10FE`. -/
def Obligations.PcNeverWraps : Prop :=
  ∀ s t : State, s.Inv → step s = .next t →
    s.nextPc.toNat = s.pc.toNat + 2 ∧ s.skipPc.toNat = s.pc.toNat + 4 ∧ t.pc.toNat ≤ 0x10FE

/-! ## Memory -/

/-- `MemRead` and `MemWrite`: the bound on unbounded naturals, the bytes lowest address first, all or nothing (R42, R43,
R157). -/
def Obligations.MemoryAccessContract : Prop :=
  ∀ (s : State) (addr : Nat),
    (∀ n, addr + n > 4096 → memRead s addr n = .error (.memoryFault addr n s.pc)) ∧
    (∀ n, addr + n ≤ 4096 → ∃ bytes, memRead s addr n = .ok bytes ∧ bytes.length = n ∧
      ∀ j, j < n → bytes[j]? = some (s.byteAt (addr + j))) ∧
    (∀ bytes : List Byte, addr + bytes.length > 4096 →
      memWrite s addr bytes = .error (.memoryFault addr bytes.length s.pc)) ∧
    (∀ bytes : List Byte, addr + bytes.length ≤ 4096 → ∃ t, memWrite s addr bytes = .ok t ∧
      (∀ j, j < bytes.length → bytes[j]? = some (t.byteAt (addr + j))) ∧
      KeepsAllBut (Part.bytesFrom addr bytes.length) s t)

/-- Memories in canonical form that read the same at every address are the same data. -/
def Obligations.CanonicalMemoryUnique : Prop :=
  ∀ (g : Glyphs) (m m' : Memory), Memory.wf g m = true → Memory.wf g m' = true →
    (∀ a, Memory.read g m a = Memory.read g m' a) → m = m'

/-- A byte written by the instruction of one cycle is seen by the fetch of the next, byte by byte: wherever `FX55` or `FX33` stores,
over both bytes of the next word, over one of them or over neither, each fetched byte is the stored one where the store covers it
and the byte that stood there where it does not (R53, R179). The byte at `PC` is bits 15..8 of the fetched word (R45). -/
def Obligations.StoreSeenByNextFetch : Prop :=
  ∀ (s t : State) (x : RegIdx), step s = .next t → t.pc.toNat + 2 ≤ 4096 →
    ∃ w, fetch t = .ok w ∧ ∀ k, k < 2 →
      let a := t.pc.toNat + k
      let fetched := if k = 0 then w.toNat / 256 else w.toNat % 256
      (s.About (.ldMemVx x) →
        (∀ j : RegIdx, j.val ≤ x.val → a = s.i.toNat + j.val → fetched = (s.reg j).toNat) ∧
        (a < s.i.toNat ∨ s.i.toNat + x.val < a → fetched = (s.byteAt a).toNat)) ∧
      (s.About (.ldBVx x) →
        (a = s.i.toNat → fetched = (s.reg x).toNat / 100) ∧
        (a = s.i.toNat + 1 → fetched = (s.reg x).toNat / 10 % 10) ∧
        (a = s.i.toNat + 2 → fetched = (s.reg x).toNat % 10) ∧
        (a < s.i.toNat ∨ s.i.toNat + 2 < a → fetched = (s.byteAt a).toNat))

/-- Who writes each part of the state, over all instructions: a general register only the instructions that have it as a destination,
`VF` also the six flag writers; only `ANNN`, `FX1E` and `FX29` `I`; `PC` advances by 2 but for the jumps, the skips and `FX0A`; only
`2NNN` and `00EE` the stack; only `FX15` and `FX18` a timer and its accumulator; only `FX33` and `FX55` memory, only `00E0` and
`DXYN` the framebuffer and an indication; only `CXNN` draws; no instruction writes a key slot, `clockAcc` or the configuration. -/
def Obligations.WritersOfEachPart : Prop :=
  ∀ (i : Instr) (s t : State), exec i s = .next t →
    (∀ r : RegIdx, t.reg r = s.reg r ∨
      match i with
      | .ldVxByte x _ | .addVxByte x _ | .ldVxVy x _ | .orVxVy x _ | .andVxVy x _ | .xorVxVy x _ | .rndVxByte x _
      | .ldVxDT x | .ldVxK x => r = x
      | .addVxVy x _ | .subVxVy x _ | .subnVxVy x _ | .shrVxVy x _ | .shlVxVy x _ => r = x ∨ r = regVF
      | .drwVxVyNibble _ _ _ => r = regVF
      | .ldVxMem x => r.val ≤ x.val
      | _ => False) ∧
    ((∀ nnn x, i ≠ .ldIAddr nnn ∧ i ≠ .addIVx x ∧ i ≠ .ldFVx x) → t.i = s.i) ∧
    (match i with
      | .jpAddr _ | .jpV0Addr _ | .callAddr _ | .ret | .seVxByte _ _ | .sneVxByte _ _ | .seVxVy _ _ | .sneVxVy _ _
      | .skpVx _ | .sknpVx _ | .ldVxK _ => True
      | _ => t.pc = s.nextPc) ∧
    ((i ≠ .ret ∧ ∀ nnn, i ≠ .callAddr nnn) → t.sp = s.sp ∧ t.stack = s.stack) ∧
    ((∀ x, i ≠ .ldDTVx x) → t.dt = s.dt ∧ t.accDT = s.accDT) ∧
    ((∀ x, i ≠ .ldSTVx x) → t.st = s.st ∧ t.accST = s.accST) ∧
    ((∀ x, i ≠ .ldBVx x ∧ i ≠ .ldMemVx x) → ∀ a, t.byteAt a = s.byteAt a) ∧
    ((i ≠ .cls ∧ ∀ x y n, i ≠ .drwVxVyNibble x y n) → t.fb = s.fb ∧ t.redraw = false) ∧
    ((∀ x nn, i ≠ .rndVxByte x nn) → t.rng = s.rng) ∧
    t.keys = s.keys ∧ t.clockAcc = s.clockAcc ∧ t.cfg = s.cfg

/-! ## Control flow -/

/-- `1NNN` and `BNNN`: the target is the address, plus `V0` for `BNNN`, without a modulus or a mask; nothing else changes
(R85, R92). -/
def Obligations.JumpsGoToTheirTarget : Prop :=
  ∀ (nnn : Addr) (s : State),
    (HasOpcode (.jpAddr nnn) (0x1000 ||| zext16 nnn) ∧
      Completes (.jpAddr nnn) s fun t =>
        t.pc.toNat = nnn.toNat ∧ t.redraw = false ∧ KeepsAllBut Part.sequencing s t) ∧
    (HasOpcode (.jpV0Addr nnn) (0xB000 ||| zext16 nnn) ∧
      Completes (.jpV0Addr nnn) s fun t =>
        t.pc.toNat = nnn.toNat + (s.reg 0).toNat ∧ t.redraw = false ∧ KeepsAllBut Part.sequencing s t)

/-- `2NNN`: the CALL's own address is pushed and the target taken; a full stack faults (R86, R158). -/
def Obligations.CallPushesItsOwnAddress : Prop :=
  ∀ (nnn : Addr) (s : State),
    HasOpcode (.callAddr nnn) (0x2000 ||| zext16 nnn) ∧
    (s.sp.toNat = 16 → exec (.callAddr nnn) s = .fault (.stackOverflow s.pc)) ∧
    (∀ k : Fin 16, s.sp.toNat = k.val →
      Completes (.callAddr nnn) s fun t =>
        t.stack[k] = s.pc ∧ t.sp.toNat = s.sp.toNat + 1 ∧ t.pc = zext16 nnn ∧ t.redraw = false ∧
        KeepsAllBut (fun p => p = .stackEntry k ∨ p = .sp ∨ p.sequencing) s t)

/-- `00EE`: the stack pointer is decremented first and the entry there read; execution resumes after the CALL that made it; the
popped entry stays in place; an empty stack faults (R87, R159). -/
def Obligations.RetResumesAfterTheCall : Prop :=
  HasOpcode .ret 0x00EE ∧
  ∀ s : State,
    (s.sp = 0 → exec .ret s = .fault (.stackUnderflow s.pc)) ∧
    (∀ k : Fin 16, s.sp.toNat = k.val + 1 →
      Completes .ret s fun t =>
        t.sp.toNat = k.val ∧ t.pc.toNat = (s.stack[k].toNat + 2) % 65536 ∧ t.redraw = false ∧
        KeepsAllBut (fun p => p = .sp ∨ p.sequencing) s t)

/-- A subroutine that leaves the stack as it found it returns to the instruction after its CALL, and `SP` is as before. -/
def Obligations.CallThenRet : Prop :=
  ∀ (nnn : Addr) (s t u : State), exec (.callAddr nnn) s = .next t → u.sp = t.sp → u.stack = t.stack →
    Completes .ret u fun r => r.pc = s.pc + 2 ∧ r.sp = s.sp

/-- `3XNN` and `4XNN`: skip one word when the register equals, or differs from, the immediate; nothing but `PC` changes
(R88, R89). -/
def Obligations.SkipsOnImmediate : Prop :=
  ∀ (x : RegIdx) (nn : Byte) (s : State),
    (HasOpcode (.seVxByte x nn) (0x3000 ||| atX x ||| zext16 nn) ∧
      Completes (.seVxByte x nn) s fun t =>
        t.pc = (if s.reg x = nn then s.skipPc else s.nextPc) ∧ t.redraw = false ∧
        KeepsAllBut Part.sequencing s t) ∧
    (HasOpcode (.sneVxByte x nn) (0x4000 ||| atX x ||| zext16 nn) ∧
      Completes (.sneVxByte x nn) s fun t =>
        t.pc = (if s.reg x = nn then s.nextPc else s.skipPc) ∧ t.redraw = false ∧
        KeepsAllBut Part.sequencing s t)

/-- `5XY0` and `9XY0`: skip one word when the registers are equal, or differ; nothing but `PC` changes (R90, R91). -/
def Obligations.SkipsOnRegisters : Prop :=
  ∀ (x y : RegIdx) (s : State),
    (HasOpcode (.seVxVy x y) (0x5000 ||| atX x ||| atY y) ∧
      Completes (.seVxVy x y) s fun t =>
        t.pc = (if s.reg x = s.reg y then s.skipPc else s.nextPc) ∧ t.redraw = false ∧
        KeepsAllBut Part.sequencing s t) ∧
    (HasOpcode (.sneVxVy x y) (0x9000 ||| atX x ||| atY y) ∧
      Completes (.sneVxVy x y) s fun t =>
        t.pc = (if s.reg x = s.reg y then s.nextPc else s.skipPc) ∧ t.redraw = false ∧
        KeepsAllBut Part.sequencing s t)

/-- `VF` over all instructions: the six flag writers leave 0 or 1 in it, and any other instruction leaves it alone unless `VF` is
the register it writes (R22). -/
def Obligations.FlagWrittenOnlyByFlagWriters : Prop :=
  ∀ (i : Instr) (s t : State), exec i s = .next t →
    match i with
    | .addVxVy _ _ | .subVxVy _ _ | .subnVxVy _ _ | .shrVxVy _ _ | .shlVxVy _ _ | .drwVxVyNibble _ _ _ =>
      t.reg regVF = 0 ∨ t.reg regVF = 1
    | .ldVxByte x _ | .addVxByte x _ | .ldVxVy x _ | .orVxVy x _ | .andVxVy x _ | .xorVxVy x _ | .rndVxByte x _
    | .ldVxDT x | .ldVxK x | .ldVxMem x => x ≠ regVF → t.reg regVF = s.reg regVF
    | _ => t.reg regVF = s.reg regVF

/-- Which PC action each instruction may return: a jump only for the four control transfers, `Repeat` only for `FX0A`, a skip
only for the six skip instructions, and `Next` for all others (R74, R75). -/
def Obligations.PcActionsByInstruction : Prop :=
  ∀ (i : Instr) (s t : State), exec i s = .next t →
    match i with
    | .jpAddr _ | .jpV0Addr _ | .callAddr _ | .ret => True
    | .seVxByte _ _ | .sneVxByte _ _ | .seVxVy _ _ | .sneVxVy _ _ | .skpVx _ | .sknpVx _ =>
      t.pc = s.pc + 2 ∨ t.pc = s.pc + 4
    | .ldVxK _ => t.pc = s.pc + 2 ∨ t.pc = s.pc
    | _ => t.pc = s.pc + 2

/-! ## Moves, arithmetic, logic, shifts -/

/-- `6XNN`, `7XNN` and `8XY0` write `V[X]` and no flag: the immediate, the sum modulo 256, the copy (R97, R98, R99). -/
def Obligations.MovesAndAddImmediate : Prop :=
  ∀ (x y : RegIdx) (nn : Byte) (s : State),
    (HasOpcode (.ldVxByte x nn) (0x6000 ||| atX x ||| zext16 nn) ∧
      Completes (.ldVxByte x nn) s fun t =>
        t.reg x = nn ∧ t.pc = s.nextPc ∧ t.redraw = false ∧
        KeepsAllBut (fun p => p = .reg x ∨ p.sequencing) s t) ∧
    (HasOpcode (.addVxByte x nn) (0x7000 ||| atX x ||| zext16 nn) ∧
      Completes (.addVxByte x nn) s fun t =>
        (t.reg x).toNat = ((s.reg x).toNat + nn.toNat) % 256 ∧ t.pc = s.nextPc ∧ t.redraw = false ∧
        KeepsAllBut (fun p => p = .reg x ∨ p.sequencing) s t) ∧
    (HasOpcode (.ldVxVy x y) (0x8000 ||| atX x ||| atY y) ∧
      Completes (.ldVxVy x y) s fun t =>
        t.reg x = s.reg y ∧ t.pc = s.nextPc ∧ t.redraw = false ∧
        KeepsAllBut (fun p => p = .reg x ∨ p.sequencing) s t)

/-- `8XY1`, `8XY2`, `8XY3`: each bit of `V[X]` is the OR, AND, XOR of the two operands' bits; `VF` is not written unless it is
the destination (R100, R101, R102). -/
def Obligations.BitwiseLogic : Prop :=
  ∀ (x y : RegIdx) (s : State),
    (HasOpcode (.orVxVy x y) (0x8001 ||| atX x ||| atY y) ∧
      Completes (.orVxVy x y) s fun t =>
        (∀ k, k < 8 → (t.reg x).getLsbD k = ((s.reg x).getLsbD k || (s.reg y).getLsbD k)) ∧
        t.pc = s.nextPc ∧ t.redraw = false ∧ KeepsAllBut (fun p => p = .reg x ∨ p.sequencing) s t) ∧
    (HasOpcode (.andVxVy x y) (0x8002 ||| atX x ||| atY y) ∧
      Completes (.andVxVy x y) s fun t =>
        (∀ k, k < 8 → (t.reg x).getLsbD k = ((s.reg x).getLsbD k && (s.reg y).getLsbD k)) ∧
        t.pc = s.nextPc ∧ t.redraw = false ∧ KeepsAllBut (fun p => p = .reg x ∨ p.sequencing) s t) ∧
    (HasOpcode (.xorVxVy x y) (0x8003 ||| atX x ||| atY y) ∧
      Completes (.xorVxVy x y) s fun t =>
        (∀ k, k < 8 → (t.reg x).getLsbD k = ((s.reg x).getLsbD k ^^ (s.reg y).getLsbD k)) ∧
        t.pc = s.nextPc ∧ t.redraw = false ∧ KeepsAllBut (fun p => p = .reg x ∨ p.sequencing) s t)

/-- `8XY4`: the sum modulo 256 and the carry, the flag written on both paths and last, so that it survives `X = F`
(R96, R103). -/
def Obligations.AddWithCarry : Prop :=
  ∀ (x y : RegIdx) (s : State),
    HasOpcode (.addVxVy x y) (0x8004 ||| atX x ||| atY y) ∧
    Completes (.addVxVy x y) s fun t =>
      (x ≠ regVF → (t.reg x).toNat = ((s.reg x).toNat + (s.reg y).toNat) % 256) ∧
      t.reg regVF = (if (s.reg x).toNat + (s.reg y).toNat ≥ 256 then 1 else 0) ∧
      t.pc = s.nextPc ∧ t.redraw = false ∧
      KeepsAllBut (fun p => p = .reg x ∨ p = .reg regVF ∨ p.sequencing) s t

/-- `8XY5` and `8XY7`: the difference modulo 256 in the two operand orders, `VF` = NOT borrow on both paths (R104, R105). -/
def Obligations.SubtractBothOrders : Prop :=
  ∀ (x y : RegIdx) (s : State),
    (HasOpcode (.subVxVy x y) (0x8005 ||| atX x ||| atY y) ∧
      Completes (.subVxVy x y) s fun t =>
        (x ≠ regVF → ((t.reg x).toNat : Int) = ((s.reg x).toNat - (s.reg y).toNat : Int) % 256) ∧
        t.reg regVF = (if (s.reg x).toNat ≥ (s.reg y).toNat then 1 else 0) ∧
        t.pc = s.nextPc ∧ t.redraw = false ∧
        KeepsAllBut (fun p => p = .reg x ∨ p = .reg regVF ∨ p.sequencing) s t) ∧
    (HasOpcode (.subnVxVy x y) (0x8007 ||| atX x ||| atY y) ∧
      Completes (.subnVxVy x y) s fun t =>
        (x ≠ regVF → ((t.reg x).toNat : Int) = ((s.reg y).toNat - (s.reg x).toNat : Int) % 256) ∧
        t.reg regVF = (if (s.reg y).toNat ≥ (s.reg x).toNat then 1 else 0) ∧
        t.pc = s.nextPc ∧ t.redraw = false ∧
        KeepsAllBut (fun p => p = .reg x ∨ p = .reg regVF ∨ p.sequencing) s t)

/-- `8XY6` and `8XYE` under either `SHIFT_SOURCE`: the value of `V[X]` or `V[Y]` shifted by 1 into `V[X]`, the bit shifted out
into `VF` (R106, R107, R108). -/
def Obligations.ShiftsByOne : Prop :=
  ∀ (x y : RegIdx) (s : State) (b : Byte),
    (s.cfg.shiftSource = .vx → b = s.reg x) → (s.cfg.shiftSource = .vy → b = s.reg y) →
    (HasOpcode (.shrVxVy x y) (0x8006 ||| atX x ||| atY y) ∧
      Completes (.shrVxVy x y) s fun t =>
        (x ≠ regVF → (t.reg x).toNat = b.toNat / 2) ∧
        (t.reg regVF).toNat = b.toNat % 2 ∧
        t.pc = s.nextPc ∧ t.redraw = false ∧
        KeepsAllBut (fun p => p = .reg x ∨ p = .reg regVF ∨ p.sequencing) s t) ∧
    (HasOpcode (.shlVxVy x y) (0x800E ||| atX x ||| atY y) ∧
      Completes (.shlVxVy x y) s fun t =>
        (x ≠ regVF → (t.reg x).toNat = b.toNat * 2 % 256) ∧
        (t.reg regVF).toNat = b.toNat / 128 ∧
        t.pc = s.nextPc ∧ t.redraw = false ∧
        KeepsAllBut (fun p => p = .reg x ∨ p = .reg regVF ∨ p.sequencing) s t)

/-! ## The address register and the random source -/

/-- `ANNN`, `FX1E` and `FX29`: the immediate, the sum modulo 65536 without a flag, the glyph address of the low nibble; `I` is
not checked (R110, R111, R112). -/
def Obligations.AddressRegisterWrites : Prop :=
  ∀ (nnn : Addr) (x : RegIdx) (s : State),
    (HasOpcode (.ldIAddr nnn) (0xA000 ||| zext16 nnn) ∧
      Completes (.ldIAddr nnn) s fun t =>
        t.i.toNat = nnn.toNat ∧ t.pc = s.nextPc ∧ t.redraw = false ∧
        KeepsAllBut (fun p => p = .i ∨ p.sequencing) s t) ∧
    (HasOpcode (.addIVx x) (0xF01E ||| atX x) ∧
      Completes (.addIVx x) s fun t =>
        t.i.toNat = (s.i.toNat + (s.reg x).toNat) % 65536 ∧ t.pc = s.nextPc ∧ t.redraw = false ∧
        KeepsAllBut (fun p => p = .i ∨ p.sequencing) s t) ∧
    (HasOpcode (.ldFVx x) (0xF029 ||| atX x) ∧
      Completes (.ldFVx x) s fun t =>
        t.i.toNat = 5 * ((s.reg x).toNat % 16) ∧ t.pc = s.nextPc ∧ t.redraw = false ∧
        KeepsAllBut (fun p => p = .i ∨ p.sequencing) s t)

/-- `CXNN`: the drawn byte, whatever it is, AND the mask; exactly one draw is made, also for a zero mask; an injected byte is the
one drawn (R115, R117). How a draw is held in the state is the model's choice (log entry 4). -/
def Obligations.RandomMasked : Prop :=
  ∀ (x : RegIdx) (nn : Byte) (s : State),
    HasOpcode (.rndVxByte x nn) (0xC000 ||| atX x ||| zext16 nn) ∧
    (∀ b rest, s.rng.injected = b :: rest → s.nextDraw = b) ∧
    Completes (.rndVxByte x nn) s fun t =>
      t.reg x = s.nextDraw &&& nn ∧ (nn = 0x00 → t.reg x = 0) ∧ (nn = 0xFF → t.reg x = s.nextDraw) ∧
      t.rng = ⟨s.rng.injected.tail, s.rng.draws + 1⟩ ∧ t.pc = s.nextPc ∧ t.redraw = false ∧
      KeepsAllBut (fun p => p = .reg x ∨ p = .rng ∨ p.sequencing) s t

/-! ## BCD and bulk transfer -/

/-- `FX33`: the three decimal digits of `V[X]` at `I`, `I+1`, `I+2`, which add up to it by place value; past the end of memory
nothing is written (R118, R122). -/
def Obligations.BcdDigitsStored : Prop :=
  ∀ (x : RegIdx) (s : State),
    HasOpcode (.ldBVx x) (0xF033 ||| atX x) ∧
    (s.i.toNat + 3 > 4096 → exec (.ldBVx x) s = .fault (.memoryFault s.i.toNat 3 s.pc)) ∧
    (s.i.toNat + 3 ≤ 4096 →
      Completes (.ldBVx x) s fun t =>
        let v := (s.reg x).toNat
        let h := (t.byteAt s.i.toNat).toNat
        let d := (t.byteAt (s.i.toNat + 1)).toNat
        let u := (t.byteAt (s.i.toNat + 2)).toNat
        h = v / 100 ∧ d = v / 10 % 10 ∧ u = v % 10 ∧ 100 * h + 10 * d + u = v ∧ d ≤ 9 ∧ u ≤ 9 ∧
        t.pc = s.nextPc ∧ t.redraw = false ∧
        KeepsAllBut (fun p => p.bytesFrom s.i.toNat 3 ∨ p.sequencing) s t)

/-- `FX55`: `V0` to `V[X]` at `I` upwards, `I` unchanged; past the end of memory nothing is written (R119). -/
def Obligations.RegistersDumped : Prop :=
  ∀ (x : RegIdx) (s : State),
    HasOpcode (.ldMemVx x) (0xF055 ||| atX x) ∧
    (s.i.toNat + (x.val + 1) > 4096 →
      exec (.ldMemVx x) s = .fault (.memoryFault s.i.toNat (x.val + 1) s.pc)) ∧
    (s.i.toNat + (x.val + 1) ≤ 4096 →
      Completes (.ldMemVx x) s fun t =>
        (∀ j : RegIdx, j.val ≤ x.val → t.byteAt (s.i.toNat + j.val) = s.reg j) ∧
        t.pc = s.nextPc ∧ t.redraw = false ∧
        KeepsAllBut (fun p => p.bytesFrom s.i.toNat (x.val + 1) ∨ p.sequencing) s t)

/-- `FX65`: `V0` to `V[X]` from `I` upwards, the registers above `X`, `I` and memory unchanged; past the end of memory no register
is written (R120). -/
def Obligations.RegistersLoaded : Prop :=
  ∀ (x : RegIdx) (s : State),
    HasOpcode (.ldVxMem x) (0xF065 ||| atX x) ∧
    (s.i.toNat + (x.val + 1) > 4096 →
      exec (.ldVxMem x) s = .fault (.memoryFault s.i.toNat (x.val + 1) s.pc)) ∧
    (s.i.toNat + (x.val + 1) ≤ 4096 →
      Completes (.ldVxMem x) s fun t =>
        (∀ j : RegIdx, j.val ≤ x.val → t.reg j = s.byteAt (s.i.toNat + j.val)) ∧
        t.pc = s.nextPc ∧ t.redraw = false ∧
        KeepsAllBut (fun p => (∃ j : RegIdx, j.val ≤ x.val ∧ p = .reg j) ∨ p.sequencing) s t)

/-- A dump followed, after anything that keeps `I` and the dumped bytes, by a load with the same `X` restores `V0` to `V[X]`
(R121). -/
def Obligations.DumpThenLoadRestores : Prop :=
  ∀ (x : RegIdx) (s t u : State), exec (.ldMemVx x) s = .next t → u.i = t.i →
    (∀ a, s.i.toNat ≤ a → a ≤ s.i.toNat + x.val → u.byteAt a = t.byteAt a) →
    Completes (.ldVxMem x) u fun r => ∀ j : RegIdx, j.val ≤ x.val → r.reg j = s.reg j

/-! ## Display -/

/-- `00E0`: every pixel `Off`, `redraw` reported even on a blank display, nothing else changed (R125, R126). -/
def Obligations.ClearScreen : Prop :=
  HasOpcode .cls 0x00E0 ∧
  ∀ s : State, Completes .cls s fun t =>
    (∀ x y, t.fb.get x y = .off) ∧ t.pc = s.nextPc ∧ t.redraw = true ∧
    KeepsAllBut (fun p => (∃ x y, p = .pixel x y) ∨ p.sequencing) s t

/-- `DXYN` pixel by pixel: a pixel changes exactly when a set sprite bit lands on it, from start coordinates wrapped modulo the
display, bit 7 leftmost, under either `SPRITE_EDGE`; `VF` is 1 exactly when such a pixel was `On`; past the end of memory
nothing changes (R128 to R132). -/
def Obligations.DrawPixelByPixel : Prop :=
  ∀ (x y : RegIdx) (n : Nibble) (s : State),
    HasOpcode (.drwVxVyNibble x y n) (0xD000 ||| atX x ||| atY y ||| atN n) ∧
    (s.i.toNat + n.val > 4096 →
      exec (.drwVxVyNibble x y n) s = .fault (.memoryFault s.i.toNat n.val s.pc)) ∧
    (s.i.toNat + n.val ≤ 4096 →
      Completes (.drwVxVyNibble x y n) s fun t =>
        let rows := (List.range n.val).map fun j => s.byteAt (s.i.toNat + j)
        let hit := Covered s.cfg.spriteEdge rows ((s.reg x).toNat % 64) ((s.reg y).toNat % 32)
        (∀ px py, hit px py → t.fb.get px py = (s.fb.get px py).flip) ∧
        (∀ px py, ¬ hit px py → t.fb.get px py = s.fb.get px py) ∧
        ((∃ px py, hit px py ∧ s.fb.get px py = .on) → t.reg regVF = 1) ∧
        ((¬ ∃ px py, hit px py ∧ s.fb.get px py = .on) → t.reg regVF = 0) ∧
        t.pc = s.nextPc ∧ t.redraw = true ∧
        KeepsAllBut (fun p => (∃ px py, p = .pixel px py) ∨ p = .reg regVF ∨ p.sequencing) s t)

/-- Drawing the same rows at the same coordinates twice restores every pixel. The second draw collides exactly when a pixel under a set
bit started `Off`, so where they all started `Off` the first draw does not collide and the second collides exactly when a set bit is
visible; `clear` after a draw blanks the display; within one blit no pixel is toggled twice (R127, R131, R132; R134 says the second
draw's rule for any display, which is true only of pixels that start `Off`: log entry 15). -/
def Obligations.DrawTwiceRestores : Prop :=
  ∀ (edge : SpriteEdge) (fb : Framebuffer) (rows : List Byte) (x0 y0 : Nat),
    rows.length ≤ 15 → x0 < 64 → y0 < 32 →
    let first := draw edge fb rows x0 y0
    let second := draw edge first.1 rows x0 y0
    second.1 = fb ∧
    (second.2 = true ↔ ∃ px py, Covered edge rows x0 y0 px py ∧ fb.get px py = .off) ∧
    ((∀ px py, Covered edge rows x0 y0 px py → fb.get px py = .off) →
      first.2 = false ∧ (second.2 = true ↔ ∃ px py, Covered edge rows x0 y0 px py)) ∧
    (∀ s : State, Completes .cls (s.setFb first.1) fun t => t.fb = Framebuffer.blank) ∧
    (∀ r c r' c' px py, SpriteBit rows r c → SpriteBit rows r' c' →
      LandsOn edge x0 y0 r c px py → LandsOn edge x0 y0 r' c' px py → r = r' ∧ c = c')

/-- `redraw` is true for `00E0` and `DXYN` whenever they complete, whether or not a pixel changed, and false for every other
instruction (R133). -/
def Obligations.RedrawIndication : Prop :=
  ∀ (i : Instr) (s t : State), exec i s = .next t →
    (t.redraw = true ↔ i = .cls ∨ ∃ x y n, i = .drwVxVyNibble x y n)

/-! ## Keypad -/

/-- `EX9E` and `EXA1` take opposite branches: skip when `V[X]` names a key that is, or is not, `Pressed`; a value of 16 or more names
no key (R141, R142). -/
def Obligations.SkipsOnKey : Prop :=
  ∀ (x : RegIdx) (s : State),
    let down := ∃ k : Fin 16, k.val = (s.reg x).toNat ∧ s.key k = .pressed
    (HasOpcode (.skpVx x) (0xE09E ||| atX x) ∧
      Completes (.skpVx x) s fun t =>
        (down → t.pc = s.skipPc) ∧ (¬ down → t.pc = s.nextPc) ∧ t.redraw = false ∧
        KeepsAllBut Part.sequencing s t) ∧
    (HasOpcode (.sknpVx x) (0xE0A1 ||| atX x) ∧
      Completes (.sknpVx x) s fun t =>
        (down → t.pc = s.nextPc) ∧ (¬ down → t.pc = s.skipPc) ∧ t.redraw = false ∧
        KeepsAllBut Part.sequencing s t)

/-- `FX0A`: the lowest `Released` key is written and the instruction goes on; with none, `Repeat` (R139, R143). -/
def Obligations.KeyWait : Prop :=
  ∀ (x : RegIdx) (s : State),
    HasOpcode (.ldVxK x) (0xF00A ||| atX x) ∧
    (∀ k : Fin 16, s.key k = .released → (∀ j : Fin 16, j < k → s.key j ≠ .released) →
      Completes (.ldVxK x) s fun t =>
        (t.reg x).toNat = k.val ∧ t.pc = s.nextPc ∧ t.redraw = false ∧
        KeepsAllBut (fun p => p = .reg x ∨ p.sequencing) s t) ∧
    ((∀ k, s.key k ≠ .released) →
      Completes (.ldVxK x) s fun t =>
        t.pc = s.pc ∧ t.redraw = false ∧ KeepsAllBut Part.sequencing s t)

/-- Whole cycles of the key wait: without an edge `PC` and every register stay, cycle after cycle; the first cycle with an edge writes
the key, clears the edge and advances; an edge is gone after one cycle (R144). -/
def Obligations.KeyWaitCycles : Prop :=
  ∀ (x : RegIdx) (s : State), s.About (.ldVxK x) →
    (∀ n, (∀ k, s.key k ≠ .released) →
      ∃ t, Sys2Proof.core.run n s = .next t ∧ t.pc = s.pc ∧ (∀ y, t.reg y = s.reg y)) ∧
    (∀ k : Fin 16, s.key k = .released → (∀ j : Fin 16, j < k → s.key j ≠ .released) →
      ∃ t, step s = .next t ∧ (t.reg x).toNat = k.val ∧ t.key k = .idle ∧ t.pc = s.nextPc ∧
        ∀ j, t.key j ≠ .released)

/-- The host's key port: an assignment from any prior state, a key above 15 refused with nothing changed (R136). -/
def Obligations.KeyPostAssigns : Prop :=
  ∀ (k : Nat) (post : KeyPost) (s : State),
    (k > 15 → setKey k post s = .error .keyOutOfRange ∧ afterCall (.setKey k post) s = s) ∧
    (∀ j : Fin 16, j.val = k → ∃ t, setKey k post s = .ok t ∧ afterCall (.setKey k post) s = t ∧
      t.key j = (match post with | .pressed => .pressed | .released => .released) ∧
      KeepsAllBut (fun p => p = .key j) s t)

/-! ## Timers -/

/-- `FX07`, `FX15`, `FX18`: the delay timer read before this cycle's decay; a timer written and its accumulator cleared; a sound timer
set to 0 is silent at once (R149, R150, R151). -/
def Obligations.TimerInstructions : Prop :=
  ∀ (x : RegIdx) (s : State),
    (HasOpcode (.ldVxDT x) (0xF007 ||| atX x) ∧
      Completes (.ldVxDT x) s fun t =>
        t.reg x = s.dt ∧ t.pc = s.nextPc ∧ t.redraw = false ∧
        KeepsAllBut (fun p => p = .reg x ∨ p.sequencing) s t) ∧
    (HasOpcode (.ldDTVx x) (0xF015 ||| atX x) ∧
      Completes (.ldDTVx x) s fun t =>
        t.dt = s.reg x ∧ t.accDT = 0 ∧ t.pc = s.nextPc ∧ t.redraw = false ∧
        KeepsAllBut (fun p => p = .dt ∨ p = .accDT ∨ p.sequencing) s t) ∧
    (HasOpcode (.ldSTVx x) (0xF018 ||| atX x) ∧
      Completes (.ldSTVx x) s fun t =>
        t.st = s.reg x ∧ t.accST = 0 ∧ (t.soundOn = true ↔ s.reg x ≠ 0) ∧ t.pc = s.nextPc ∧ t.redraw = false ∧
        KeepsAllBut (fun p => p = .st ∨ p = .accST ∨ p.sequencing) s t)

/-- "No instruction reads ST": a state that differs only in the sound timer and its accumulator goes to one that differs only there, and
`FX18` overwrites both; no instruction but `FX15` and `FX18` writes a timer or an accumulator (R152). The first clause compares two
runs: for `CXNN` with nothing injected it rests on both drawing the same byte from equal counters (log entry 4). -/
def Obligations.OnlyTimerInstructionsTouchTimers : Prop :=
  (∀ (i : Instr) (s : State) (b : Byte) (acc : Rat),
    if ∃ x, i = .ldSTVx x then exec i (s.withSound b acc) = exec i s
    else exec i (s.withSound b acc) = mapNext (·.withSound b acc) (exec i s)) ∧
  (∀ (i : Instr) (s t : State), exec i s = .next t →
    ((∀ x, i ≠ .ldDTVx x) → t.dt = s.dt ∧ t.accDT = s.accDT) ∧
    ((∀ x, i ≠ .ldSTVx x) → t.st = s.st ∧ t.accST = s.accST))

/-- The timer law: with `N` written by `FX15` and no later cycle of the run executing `FX15`, at the end of the `m`-th cycle counting the
writing one, `DT = max(0, N - floor(60 m / IPS))`; the same for `ST` and `FX18` (R154). -/
def Obligations.TimerLaw : Prop :=
  ∀ (run : Nat → State) (m : Nat), 0 < (run 0).cfg.ips → 1 ≤ m →
    (∀ k, k < m → step (run k) = .next (run (k + 1))) →
    (∀ x : RegIdx, (run 0).About (.ldDTVx x) → (∀ k y, 1 ≤ k → k < m → ¬ (run k).About (.ldDTVx y)) →
      (run m).dt.toNat = ((run 0).reg x).toNat - 60 * m / (run 0).cfg.ips) ∧
    (∀ x : RegIdx, (run 0).About (.ldSTVx x) → (∀ k y, 1 ≤ k → k < m → ¬ (run k).About (.ldSTVx y)) →
      (run m).st.toNat = ((run 0).reg x).toNat - 60 * m / (run 0).cfg.ips)

/-- The timer law as a step: a cycle that runs `FX15` starts `DT` from the value written, and a cycle that runs anything else takes a
timer that `m` decays have brought from `N` to what `m + 1` bring it to; the same for `FX18` and `ST` (R146, R147, R150, R151, R154). -/
def Obligations.DecayedTimerKept : Prop :=
  ∀ (s t : State) (i : Instr) (N m : Nat), 0 < s.cfg.ips → s.About i → step s = .next t →
    ((∀ x, i = .ldDTVx x → DecayedFrom (s.reg x).toNat s.cfg.ips 1 t.dt t.accDT) ∧
      ((∀ x, i ≠ .ldDTVx x) → DecayedFrom N s.cfg.ips m s.dt s.accDT →
        DecayedFrom N s.cfg.ips (m + 1) t.dt t.accDT)) ∧
    ((∀ x, i = .ldSTVx x → DecayedFrom (s.reg x).toNat s.cfg.ips 1 t.st t.accST) ∧
      ((∀ x, i ≠ .ldSTVx x) → DecayedFrom N s.cfg.ips m s.st s.accST →
        DecayedFrom N s.cfg.ips (m + 1) t.st t.accST))

/-! ## Faults -/

/-- Which faults an instruction can raise, when, and with what info; no instruction is refused (R155). -/
def Obligations.FaultsByInstruction : Prop :=
  ∀ (i : Instr) (s : State),
    (∀ r, exec i s ≠ .refused r) ∧
    (∀ f, exec i s = .fault f →
      f.pc = s.pc ∧
      match i with
      | .callAddr _ => f = .stackOverflow s.pc ∧ f.code = 3 ∧ 16 ≤ s.sp.toNat
      | .ret => f = .stackUnderflow s.pc ∧ f.code = 4 ∧ s.sp = 0
      | .drwVxVyNibble _ _ n => f = .memoryFault s.i.toNat n.val s.pc ∧ f.code = 2 ∧ s.i.toNat + n.val > 4096
      | .ldBVx _ => f = .memoryFault s.i.toNat 3 s.pc ∧ f.code = 2 ∧ s.i.toNat + 3 > 4096
      | .ldMemVx x | .ldVxMem x =>
        f = .memoryFault s.i.toNat (x.val + 1) s.pc ∧ f.code = 2 ∧ s.i.toNat + (x.val + 1) > 4096
      | _ => False)

/-- Every fault of a cycle is one of four: a fetch past the end of memory, a word that is no instruction, or the one fault of the
instruction; the `PC` it records is the one the state still holds, and no cycle is refused (R155, R160). -/
def Obligations.FaultPriority : Prop :=
  ∀ s : State,
    (∀ r, step s ≠ .refused r) ∧
    (∀ f, step s = .fault f → f.pc = s.pc ∧
      ((s.pc.toNat + 2 > 4096 ∧ f = .memoryFault s.pc.toNat 2 s.pc ∧ f.code = 2) ∨
        (s.pc.toNat + 2 ≤ 4096 ∧ decode s.wordAtPc = .error (.invalidOpcode s.wordAtPc) ∧
          f = .invalidOpcode s.wordAtPc s.pc ∧ f.code = 1) ∨
        ∃ i, s.About i ∧ exec i s = .fault f))

/-! ## The host's ports -/

/-- `step` neither reads nor changes `clockAcc` (R77). The first clause compares two runs: for `CXNN` with nothing injected it rests
on both drawing the same byte from equal counters (log entry 4). -/
def Obligations.StepIgnoresTheClock : Prop :=
  ∀ (s : State) (c : Rat),
    step (s.withClock c) = mapNext (·.withClock c) (step s) ∧
    (∀ t, step s = .next t → t.clockAcc = s.clockAcc)

/-- `advance`: where the cycles that are due do not fault, exactly those run, the redraw indication is the OR of theirs, and the
remainder, less than a period, is carried (R78, R81). That they lead where as many steps lead compares two runs, which draw equal bytes
from equal counters (log entry 4). -/
def Obligations.AdvanceRunsTheCyclesDue : Prop :=
  ∀ (s : State) (e : Nat), 0 < s.cfg.ips → 0 ≤ s.clockAcc →
    let P : Rat := 1000000 / (s.cfg.ips : Rat)
    let n := ((s.clockAcc + e) / P).floor.toNat
    ∀ u, Sys2Proof.core.run n s = .next u →
      advance e s = .ok n (redrawSeen n s) (u.withClock (s.clockAcc + e - n * P)) ∧
      0 ≤ s.clockAcc + e - n * P ∧ s.clockAcc + e - n * P < P

/-- `advance` stops at the first fault, with the cycles completed before it, their redraw indication and their periods taken; the
faulting cycle changed nothing, and a further step raises the same fault (R79, R81, R83). That the cycles of the call lead where as
many steps lead compares two runs, which draw equal bytes from equal counters (log entry 4). -/
def Obligations.AdvanceStopsAtTheFault : Prop :=
  ∀ (s : State) (e n : Nat) (u : State) (f : Fault), 0 < s.cfg.ips → 0 ≤ s.clockAcc →
    let P : Rat := 1000000 / (s.cfg.ips : Rat)
    (n + 1 : Rat) * P ≤ s.clockAcc + e → Sys2Proof.core.run n s = .next u → step u = .fault f →
      let t := u.withClock (s.clockAcc + e - n * P)
      advance e s = .fault f n (redrawSeen n s) t ∧ step t = .fault f ∧ afterCall .step t = t

/-- `set_rate`: `IPS` alone changes, neither `clockAcc` nor a timer accumulator; 0 is refused and changes nothing (R80). -/
def Obligations.RateChange : Prop :=
  ∀ (r : Nat) (s : State),
    (r = 0 → setRate r s = .error .zeroRate ∧ afterCall (.setRate r) s = s) ∧
    (r ≠ 0 → ∃ t, setRate r s = .ok t ∧ afterCall (.setRate r) s = t ∧
      t.cfg = { s.cfg with ips := r } ∧ KeepsAllBut (fun p => p = .configuration) s t ∧
      microsPerInstruction t = 1000000 / (r : Rat) ∧ secondsPerCycle t.cfg = 1 / (r : Rat))

/-- `load`: the image verbatim from `0x200`, at most 3584 bytes, nothing else changed; a larger image is refused whole (R174, R175).
The `PC` that the fault of a refused load records is the model's choice: the one the state holds (log entry 12). -/
def Obligations.ProgramLoad : Prop :=
  ∀ (image : List Byte) (s : State),
    (image.length > 3584 →
      load image s = .error (.memoryFault 0x200 image.length s.pc) ∧ afterCall (.load image) s = s) ∧
    (image.length ≤ 3584 → ∃ t, load image s = .ok t ∧ afterCall (.load image) s = t ∧
      (∀ j, j < image.length → image[j]? = some (t.byteAt (0x200 + j))) ∧
      KeepsAllBut (Part.bytesFrom 0x200 image.length) s t)
end

