-- ==== Sys2Proof/Laws/Decode.lean ====
section
/-! SUPPORT. The fields of an opcode as numbers, and the formats as numbers: every fact about decoding and encoding is then
linear arithmetic. -/

namespace Sys2Proof

theorem toNat_append_add {n m : Nat} (a : BitVec n) (b : BitVec m) :
    (a ++ b).toNat = a.toNat * 2 ^ m + b.toNat := by
  rw [BitVec.toNat_append, ← Nat.shiftLeft_add_eq_or_of_lt b.isLt, Nat.shiftLeft_eq]

theorem formatA_toNat (o : BitVec 4) (nnn : Addr) : (formatA o nnn).toNat = o.toNat * 4096 + nnn.toNat :=
  toNat_append_add o nnn

theorem formatRI_toNat (o : BitVec 4) (x : RegIdx) (nn : Byte) :
    (formatRI o x nn).toNat = o.toNat * 4096 + x.val * 256 + nn.toNat := by
  simp only [formatRI, toNat_append_add]
  simp
  omega

theorem formatRR_toNat (o : BitVec 4) (x y : RegIdx) (k : BitVec 4) :
    (formatRR o x y k).toNat = o.toNat * 4096 + x.val * 256 + y.val * 16 + k.toNat := by
  simp only [formatRR, toNat_append_add]
  simp
  omega

theorem fieldOp_val (w : Word) : (fieldOp w).val = w.toNat / 4096 := by
  simp [fieldOp, Nat.shiftRight_eq_div_pow]
  omega

theorem fieldX_val (w : Word) : (fieldX w).val = w.toNat / 256 % 16 := by
  simp [fieldX, Nat.shiftRight_eq_div_pow]

theorem fieldY_val (w : Word) : (fieldY w).val = w.toNat / 16 % 16 := by
  simp [fieldY, Nat.shiftRight_eq_div_pow]

theorem fieldN_val (w : Word) : (fieldN w).val = w.toNat % 16 := by
  simp [fieldN]

theorem fieldNN_toNat (w : Word) : (fieldNN w).toNat = w.toNat % 256 := by
  simp [fieldNN]

theorem fieldNNN_toNat (w : Word) : (fieldNNN w).toNat = w.toNat % 4096 := by
  simp [fieldNNN]

/-! The fields of each format. -/

@[simp] theorem fieldOp_formatA (o : BitVec 4) (nnn : Addr) : (fieldOp (formatA o nnn)).val = o.toNat := by
  rw [fieldOp_val, formatA_toNat]
  omega

@[simp] theorem fieldNNN_formatA (o : BitVec 4) (nnn : Addr) : fieldNNN (formatA o nnn) = nnn := by
  apply BitVec.eq_of_toNat_eq
  rw [fieldNNN_toNat, formatA_toNat]
  omega

@[simp] theorem fieldOp_formatRI (o : BitVec 4) (x : RegIdx) (nn : Byte) :
    (fieldOp (formatRI o x nn)).val = o.toNat := by
  rw [fieldOp_val, formatRI_toNat]
  omega

@[simp] theorem fieldX_formatRI (o : BitVec 4) (x : RegIdx) (nn : Byte) : fieldX (formatRI o x nn) = x := by
  apply Fin.ext
  rw [fieldX_val, formatRI_toNat]
  omega

@[simp] theorem fieldNN_formatRI (o : BitVec 4) (x : RegIdx) (nn : Byte) : fieldNN (formatRI o x nn) = nn := by
  apply BitVec.eq_of_toNat_eq
  rw [fieldNN_toNat, formatRI_toNat]
  omega

@[simp] theorem fieldOp_formatRR (o : BitVec 4) (x y : RegIdx) (k : BitVec 4) :
    (fieldOp (formatRR o x y k)).val = o.toNat := by
  rw [fieldOp_val, formatRR_toNat]
  omega

@[simp] theorem fieldX_formatRR (o : BitVec 4) (x y : RegIdx) (k : BitVec 4) : fieldX (formatRR o x y k) = x := by
  apply Fin.ext
  rw [fieldX_val, formatRR_toNat]
  omega

@[simp] theorem fieldY_formatRR (o : BitVec 4) (x y : RegIdx) (k : BitVec 4) : fieldY (formatRR o x y k) = y := by
  apply Fin.ext
  rw [fieldY_val, formatRR_toNat]
  omega

@[simp] theorem fieldN_formatRR (o : BitVec 4) (x y : RegIdx) (k : BitVec 4) :
    fieldN (formatRR o x y k) = k.toFin := by
  apply Fin.ext
  rw [fieldN_val, formatRR_toNat]
  simp
  omega

/-! A word is the format of its own fields. -/

theorem formatA_of_fields (w : Word) (o : BitVec 4) (h : (fieldOp w).val = o.toNat) :
    formatA o (fieldNNN w) = w := by
  apply BitVec.eq_of_toNat_eq
  rw [formatA_toNat, fieldNNN_toNat, ← h, fieldOp_val]
  omega

theorem formatRI_of_fields (w : Word) (o : BitVec 4) (h : (fieldOp w).val = o.toNat) :
    formatRI o (fieldX w) (fieldNN w) = w := by
  apply BitVec.eq_of_toNat_eq
  rw [formatRI_toNat, fieldNN_toNat, fieldX_val, ← h, fieldOp_val]
  omega

theorem formatRR_of_fields (w : Word) (o k : BitVec 4) (h : (fieldOp w).val = o.toNat)
    (hk : (fieldN w).val = k.toNat) : formatRR o (fieldX w) (fieldY w) k = w := by
  apply BitVec.eq_of_toNat_eq
  rw [formatRR_toNat, fieldY_val, fieldX_val, ← h, ← hk, fieldOp_val, fieldN_val]
  omega

/-! Byte order. -/

theorem wordOfBytes_toNat (hi lo : Byte) : (wordOfBytes hi lo).toNat = hi.toNat * 256 + lo.toNat := by
  exact toNat_append_add hi lo

theorem highByte_toNat (w : Word) : (highByte w).toNat = w.toNat / 256 := by
  simp [highByte, Nat.shiftRight_eq_div_pow]
  omega

theorem lowByte_toNat (w : Word) : (lowByte w).toNat = w.toNat % 256 := by
  simp [lowByte]

theorem wordOfBytes_bytes (w : Word) : wordOfBytes (highByte w) (lowByte w) = w := by
  apply BitVec.eq_of_toNat_eq
  rw [wordOfBytes_toNat, highByte_toNat, lowByte_toNat]
  omega

theorem decodeTableWord_eq (w : Word) :
    decodeTableWord 16 w.toNat = (match decode w with | .ok i => some i | .error _ => none) := by
  have hw : BitVec.ofNat 16 (w.toNat % 2 ^ 16) = w := by
    apply BitVec.eq_of_toNat_eq
    simpa using w.isLt
  unfold decodeTableWord
  rw [hw]
  simp only [bytesOfWord, decodeBytes, wordOfBytes_bytes]
  cases decode w <;> rfl

/-! The encoding lines of the rules, `0x6000 | X<<8 | NN` and the like, are the formats. -/

theorem or_eq_add (a b k : Nat) (h : b < 2 ^ k) : a * 2 ^ k ||| b = a * 2 ^ k + b := by
  rw [Nat.mul_comm, Nat.two_pow_add_eq_or_of_lt h]

theorem formatA_eq_or (o : BitVec 4) (nnn : Addr) :
    formatA o nnn = BitVec.ofNat 16 (o.toNat * 4096) ||| zext16 nnn := by
  apply BitVec.eq_of_toNat_eq
  have h := or_eq_add o.toNat nnn.toNat 12 nnn.isLt
  simp only [formatA_toNat, BitVec.toNat_or, BitVec.toNat_ofNat, BitVec.toNat_setWidth]
  rw [Nat.mod_eq_of_lt (by omega), Nat.mod_eq_of_lt (by omega)]
  exact h.symm

theorem formatRI_eq_or (o : BitVec 4) (x : RegIdx) (nn : Byte) :
    formatRI o x nn = BitVec.ofNat 16 (o.toNat * 4096) ||| Machine.atX x ||| zext16 nn := by
  apply BitVec.eq_of_toNat_eq
  have h1 := or_eq_add o.toNat (x.val * 256) 12 (by omega)
  have h2 := or_eq_add (o.toNat * 16 + x.val) nn.toNat 8 nn.isLt
  simp only [formatRI_toNat, Machine.atX, BitVec.toNat_or, BitVec.toNat_ofNat, BitVec.toNat_setWidth,
    show (4096 : Nat) = 2 ^ 12 from rfl]
  rw [Nat.mod_eq_of_lt (by omega), Nat.mod_eq_of_lt (by omega), Nat.mod_eq_of_lt (by omega), h1,
    show o.toNat * 2 ^ 12 + x.val * 256 = (o.toNat * 16 + x.val) * 2 ^ 8 by omega, h2]

theorem formatRR_eq_or (o : BitVec 4) (x y : RegIdx) (k : BitVec 4) :
    formatRR o x y k =
      BitVec.ofNat 16 (o.toNat * 4096) ||| Machine.atX x ||| Machine.atY y ||| BitVec.ofNat 16 k.toNat := by
  apply BitVec.eq_of_toNat_eq
  have h1 := or_eq_add o.toNat (x.val * 256) 12 (by omega)
  have h2 := or_eq_add (o.toNat * 16 + x.val) (y.val * 16) 8 (by omega)
  have h3 := or_eq_add ((o.toNat * 16 + x.val) * 16 + y.val) k.toNat 4 k.isLt
  simp only [formatRR_toNat, Machine.atX, Machine.atY, BitVec.toNat_or, BitVec.toNat_ofNat,
    show (4096 : Nat) = 2 ^ 12 from rfl]
  rw [Nat.mod_eq_of_lt (by omega), Nat.mod_eq_of_lt (by omega), Nat.mod_eq_of_lt (by omega),
    Nat.mod_eq_of_lt (by omega), h1,
    show o.toNat * 2 ^ 12 + x.val * 256 = (o.toNat * 16 + x.val) * 2 ^ 8 by omega, h2,
    show (o.toNat * 16 + x.val) * 2 ^ 8 + y.val * 16 = ((o.toNat * 16 + x.val) * 16 + y.val) * 2 ^ 4 by omega, h3]

theorem formatRR_eq_or_sub (o : BitVec 4) (x y : RegIdx) (k : BitVec 4) :
    formatRR o x y k =
      (BitVec.ofNat 16 (o.toNat * 4096) ||| BitVec.ofNat 16 k.toNat) ||| Machine.atX x ||| Machine.atY y := by
  rw [formatRR_eq_or]
  ac_rfl

theorem formatRI_eq_or_sub (o : BitVec 4) (x : RegIdx) (nn : Byte) :
    formatRI o x nn = (BitVec.ofNat 16 (o.toNat * 4096) ||| zext16 nn) ||| Machine.atX x := by
  rw [formatRI_eq_or]
  ac_rfl

/-! The fixed bits of each format. -/

theorem nibble_and_ones : ∀ k : BitVec 4, k &&& 15#4 = k := by decide

theorem byte_and_ones : ∀ b : Byte, b &&& 255#8 = b := by decide

theorem formatA_and (o : BitVec 4) (nnn : Addr) : formatA o nnn &&& 0xF000 = formatA o 0 := by
  rw [show (0xF000 : Word) = (0xF#4 ++ 0x000#12 : BitVec 16) by decide, formatA, BitVec.and_append, nibble_and_ones]
  simp [formatA]

theorem formatRI_and (o : BitVec 4) (x : RegIdx) (nn : Byte) : formatRI o x nn &&& 0xF000 = formatA o 0 := by
  rw [show (0xF000 : Word) = ((0xF#4 ++ 0x0#4 : BitVec 8) ++ 0x00#8 : BitVec 16) by decide, formatRI,
    BitVec.and_append, BitVec.and_append, nibble_and_ones]
  apply BitVec.eq_of_toNat_eq
  simp only [toNat_append_add, formatA_toNat]
  simp
  omega

theorem formatRI_and_sub (o : BitVec 4) (x : RegIdx) (nn : Byte) : formatRI o x nn &&& 0xF0FF = formatRI o 0 nn := by
  rw [show (0xF0FF : Word) = ((0xF#4 ++ 0x0#4 : BitVec 8) ++ 0xFF#8 : BitVec 16) by decide, formatRI,
    BitVec.and_append, BitVec.and_append, nibble_and_ones, byte_and_ones]
  apply BitVec.eq_of_toNat_eq
  simp only [toNat_append_add, formatRI_toNat]
  simp
  omega

theorem formatRR_and (o : BitVec 4) (x y : RegIdx) (k : BitVec 4) : formatRR o x y k &&& 0xF000 = formatA o 0 := by
  rw [show (0xF000 : Word) = ((0xF#4 ++ 0x0#4 : BitVec 8) ++ (0x0#4 ++ 0x0#4 : BitVec 8) : BitVec 16) by decide,
    formatRR, BitVec.and_append, BitVec.and_append, BitVec.and_append, nibble_and_ones]
  apply BitVec.eq_of_toNat_eq
  simp only [toNat_append_add, formatA_toNat]
  simp
  omega

theorem formatRR_and_sub (o : BitVec 4) (x y : RegIdx) (k : BitVec 4) :
    formatRR o x y k &&& 0xF00F = formatRR o 0 0 k := by
  rw [show (0xF00F : Word) = ((0xF#4 ++ 0x0#4 : BitVec 8) ++ (0x0#4 ++ 0xF#4 : BitVec 8) : BitVec 16) by decide,
    formatRR, BitVec.and_append, BitVec.and_append, BitVec.and_append, nibble_and_ones, nibble_and_ones]
  apply BitVec.eq_of_toNat_eq
  simp only [toNat_append_add, formatRR_toNat]
  simp
  omega

end Sys2Proof
end

