-- ==== Sys2Proof/Laws/State.lean ====
section
/-! SUPPORT. One lemma per field per update of the state, each true by `rfl`, so that no later proof unfolds a record
update. -/

namespace Sys2Proof.Machine

variable (s : State)

/-! `setReg` -/

@[simp] theorem State.setReg_v (x : RegIdx) (b : Byte) : (s.setReg x b).v = s.v.set x b := rfl
@[simp] theorem State.setReg_i (x : RegIdx) (b : Byte) : (s.setReg x b).i = s.i := rfl
@[simp] theorem State.setReg_pc (x : RegIdx) (b : Byte) : (s.setReg x b).pc = s.pc := rfl
@[simp] theorem State.setReg_sp (x : RegIdx) (b : Byte) : (s.setReg x b).sp = s.sp := rfl
@[simp] theorem State.setReg_stack (x : RegIdx) (b : Byte) : (s.setReg x b).stack = s.stack := rfl
@[simp] theorem State.setReg_dt (x : RegIdx) (b : Byte) : (s.setReg x b).dt = s.dt := rfl
@[simp] theorem State.setReg_st (x : RegIdx) (b : Byte) : (s.setReg x b).st = s.st := rfl
@[simp] theorem State.setReg_accDT (x : RegIdx) (b : Byte) : (s.setReg x b).accDT = s.accDT := rfl
@[simp] theorem State.setReg_accST (x : RegIdx) (b : Byte) : (s.setReg x b).accST = s.accST := rfl
@[simp] theorem State.setReg_mem (x : RegIdx) (b : Byte) : (s.setReg x b).mem = s.mem := rfl
@[simp] theorem State.setReg_fb (x : RegIdx) (b : Byte) : (s.setReg x b).fb = s.fb := rfl
@[simp] theorem State.setReg_keys (x : RegIdx) (b : Byte) : (s.setReg x b).keys = s.keys := rfl
@[simp] theorem State.setReg_clockAcc (x : RegIdx) (b : Byte) : (s.setReg x b).clockAcc = s.clockAcc := rfl
@[simp] theorem State.setReg_cfg (x : RegIdx) (b : Byte) : (s.setReg x b).cfg = s.cfg := rfl
@[simp] theorem State.setReg_rng (x : RegIdx) (b : Byte) : (s.setReg x b).rng = s.rng := rfl
@[simp] theorem State.setReg_redraw (x : RegIdx) (b : Byte) : (s.setReg x b).redraw = s.redraw := rfl

/-! `loadRegs` -/

@[simp] theorem State.loadRegs_v (bs : List Byte) : (s.loadRegs bs).v = setRegsFrom s.v 0 bs := rfl
@[simp] theorem State.loadRegs_i (bs : List Byte) : (s.loadRegs bs).i = s.i := rfl
@[simp] theorem State.loadRegs_pc (bs : List Byte) : (s.loadRegs bs).pc = s.pc := rfl
@[simp] theorem State.loadRegs_sp (bs : List Byte) : (s.loadRegs bs).sp = s.sp := rfl
@[simp] theorem State.loadRegs_stack (bs : List Byte) : (s.loadRegs bs).stack = s.stack := rfl
@[simp] theorem State.loadRegs_dt (bs : List Byte) : (s.loadRegs bs).dt = s.dt := rfl
@[simp] theorem State.loadRegs_st (bs : List Byte) : (s.loadRegs bs).st = s.st := rfl
@[simp] theorem State.loadRegs_accDT (bs : List Byte) : (s.loadRegs bs).accDT = s.accDT := rfl
@[simp] theorem State.loadRegs_accST (bs : List Byte) : (s.loadRegs bs).accST = s.accST := rfl
@[simp] theorem State.loadRegs_mem (bs : List Byte) : (s.loadRegs bs).mem = s.mem := rfl
@[simp] theorem State.loadRegs_fb (bs : List Byte) : (s.loadRegs bs).fb = s.fb := rfl
@[simp] theorem State.loadRegs_keys (bs : List Byte) : (s.loadRegs bs).keys = s.keys := rfl
@[simp] theorem State.loadRegs_clockAcc (bs : List Byte) : (s.loadRegs bs).clockAcc = s.clockAcc := rfl
@[simp] theorem State.loadRegs_cfg (bs : List Byte) : (s.loadRegs bs).cfg = s.cfg := rfl
@[simp] theorem State.loadRegs_rng (bs : List Byte) : (s.loadRegs bs).rng = s.rng := rfl
@[simp] theorem State.loadRegs_redraw (bs : List Byte) : (s.loadRegs bs).redraw = s.redraw := rfl

/-! `setI` -/

@[simp] theorem State.setI_v (w : Word) : (s.setI w).v = s.v := rfl
@[simp] theorem State.setI_i (w : Word) : (s.setI w).i = w := rfl
@[simp] theorem State.setI_pc (w : Word) : (s.setI w).pc = s.pc := rfl
@[simp] theorem State.setI_sp (w : Word) : (s.setI w).sp = s.sp := rfl
@[simp] theorem State.setI_stack (w : Word) : (s.setI w).stack = s.stack := rfl
@[simp] theorem State.setI_dt (w : Word) : (s.setI w).dt = s.dt := rfl
@[simp] theorem State.setI_st (w : Word) : (s.setI w).st = s.st := rfl
@[simp] theorem State.setI_accDT (w : Word) : (s.setI w).accDT = s.accDT := rfl
@[simp] theorem State.setI_accST (w : Word) : (s.setI w).accST = s.accST := rfl
@[simp] theorem State.setI_mem (w : Word) : (s.setI w).mem = s.mem := rfl
@[simp] theorem State.setI_fb (w : Word) : (s.setI w).fb = s.fb := rfl
@[simp] theorem State.setI_keys (w : Word) : (s.setI w).keys = s.keys := rfl
@[simp] theorem State.setI_clockAcc (w : Word) : (s.setI w).clockAcc = s.clockAcc := rfl
@[simp] theorem State.setI_cfg (w : Word) : (s.setI w).cfg = s.cfg := rfl
@[simp] theorem State.setI_rng (w : Word) : (s.setI w).rng = s.rng := rfl
@[simp] theorem State.setI_redraw (w : Word) : (s.setI w).redraw = s.redraw := rfl

/-! `setDT` -/

@[simp] theorem State.setDT_v (b : Byte) : (s.setDT b).v = s.v := rfl
@[simp] theorem State.setDT_i (b : Byte) : (s.setDT b).i = s.i := rfl
@[simp] theorem State.setDT_pc (b : Byte) : (s.setDT b).pc = s.pc := rfl
@[simp] theorem State.setDT_sp (b : Byte) : (s.setDT b).sp = s.sp := rfl
@[simp] theorem State.setDT_stack (b : Byte) : (s.setDT b).stack = s.stack := rfl
@[simp] theorem State.setDT_dt (b : Byte) : (s.setDT b).dt = b := rfl
@[simp] theorem State.setDT_st (b : Byte) : (s.setDT b).st = s.st := rfl
@[simp] theorem State.setDT_accDT (b : Byte) : (s.setDT b).accDT = 0 := rfl
@[simp] theorem State.setDT_accST (b : Byte) : (s.setDT b).accST = s.accST := rfl
@[simp] theorem State.setDT_mem (b : Byte) : (s.setDT b).mem = s.mem := rfl
@[simp] theorem State.setDT_fb (b : Byte) : (s.setDT b).fb = s.fb := rfl
@[simp] theorem State.setDT_keys (b : Byte) : (s.setDT b).keys = s.keys := rfl
@[simp] theorem State.setDT_clockAcc (b : Byte) : (s.setDT b).clockAcc = s.clockAcc := rfl
@[simp] theorem State.setDT_cfg (b : Byte) : (s.setDT b).cfg = s.cfg := rfl
@[simp] theorem State.setDT_rng (b : Byte) : (s.setDT b).rng = s.rng := rfl
@[simp] theorem State.setDT_redraw (b : Byte) : (s.setDT b).redraw = s.redraw := rfl

/-! `setST` -/

@[simp] theorem State.setST_v (b : Byte) : (s.setST b).v = s.v := rfl
@[simp] theorem State.setST_i (b : Byte) : (s.setST b).i = s.i := rfl
@[simp] theorem State.setST_pc (b : Byte) : (s.setST b).pc = s.pc := rfl
@[simp] theorem State.setST_sp (b : Byte) : (s.setST b).sp = s.sp := rfl
@[simp] theorem State.setST_stack (b : Byte) : (s.setST b).stack = s.stack := rfl
@[simp] theorem State.setST_dt (b : Byte) : (s.setST b).dt = s.dt := rfl
@[simp] theorem State.setST_st (b : Byte) : (s.setST b).st = b := rfl
@[simp] theorem State.setST_accDT (b : Byte) : (s.setST b).accDT = s.accDT := rfl
@[simp] theorem State.setST_accST (b : Byte) : (s.setST b).accST = 0 := rfl
@[simp] theorem State.setST_mem (b : Byte) : (s.setST b).mem = s.mem := rfl
@[simp] theorem State.setST_fb (b : Byte) : (s.setST b).fb = s.fb := rfl
@[simp] theorem State.setST_keys (b : Byte) : (s.setST b).keys = s.keys := rfl
@[simp] theorem State.setST_clockAcc (b : Byte) : (s.setST b).clockAcc = s.clockAcc := rfl
@[simp] theorem State.setST_cfg (b : Byte) : (s.setST b).cfg = s.cfg := rfl
@[simp] theorem State.setST_rng (b : Byte) : (s.setST b).rng = s.rng := rfl
@[simp] theorem State.setST_redraw (b : Byte) : (s.setST b).redraw = s.redraw := rfl

/-! `setBytes` -/

@[simp] theorem State.setBytes_v (a : Nat) (bs : List Byte) : (s.setBytes a bs).v = s.v := rfl
@[simp] theorem State.setBytes_i (a : Nat) (bs : List Byte) : (s.setBytes a bs).i = s.i := rfl
@[simp] theorem State.setBytes_pc (a : Nat) (bs : List Byte) : (s.setBytes a bs).pc = s.pc := rfl
@[simp] theorem State.setBytes_sp (a : Nat) (bs : List Byte) : (s.setBytes a bs).sp = s.sp := rfl
@[simp] theorem State.setBytes_stack (a : Nat) (bs : List Byte) : (s.setBytes a bs).stack = s.stack := rfl
@[simp] theorem State.setBytes_dt (a : Nat) (bs : List Byte) : (s.setBytes a bs).dt = s.dt := rfl
@[simp] theorem State.setBytes_st (a : Nat) (bs : List Byte) : (s.setBytes a bs).st = s.st := rfl
@[simp] theorem State.setBytes_accDT (a : Nat) (bs : List Byte) : (s.setBytes a bs).accDT = s.accDT := rfl
@[simp] theorem State.setBytes_accST (a : Nat) (bs : List Byte) : (s.setBytes a bs).accST = s.accST := rfl
@[simp] theorem State.setBytes_mem (a : Nat) (bs : List Byte) : (s.setBytes a bs).mem = Memory.writeBytes s.cfg.glyphs s.mem a bs := rfl
@[simp] theorem State.setBytes_fb (a : Nat) (bs : List Byte) : (s.setBytes a bs).fb = s.fb := rfl
@[simp] theorem State.setBytes_keys (a : Nat) (bs : List Byte) : (s.setBytes a bs).keys = s.keys := rfl
@[simp] theorem State.setBytes_clockAcc (a : Nat) (bs : List Byte) : (s.setBytes a bs).clockAcc = s.clockAcc := rfl
@[simp] theorem State.setBytes_cfg (a : Nat) (bs : List Byte) : (s.setBytes a bs).cfg = s.cfg := rfl
@[simp] theorem State.setBytes_rng (a : Nat) (bs : List Byte) : (s.setBytes a bs).rng = s.rng := rfl
@[simp] theorem State.setBytes_redraw (a : Nat) (bs : List Byte) : (s.setBytes a bs).redraw = s.redraw := rfl

/-! `afterDraw` -/

@[simp] theorem State.afterDraw_v : s.afterDraw.v = s.v := rfl
@[simp] theorem State.afterDraw_i : s.afterDraw.i = s.i := rfl
@[simp] theorem State.afterDraw_pc : s.afterDraw.pc = s.pc := rfl
@[simp] theorem State.afterDraw_sp : s.afterDraw.sp = s.sp := rfl
@[simp] theorem State.afterDraw_stack : s.afterDraw.stack = s.stack := rfl
@[simp] theorem State.afterDraw_dt : s.afterDraw.dt = s.dt := rfl
@[simp] theorem State.afterDraw_st : s.afterDraw.st = s.st := rfl
@[simp] theorem State.afterDraw_accDT : s.afterDraw.accDT = s.accDT := rfl
@[simp] theorem State.afterDraw_accST : s.afterDraw.accST = s.accST := rfl
@[simp] theorem State.afterDraw_mem : s.afterDraw.mem = s.mem := rfl
@[simp] theorem State.afterDraw_fb : s.afterDraw.fb = s.fb := rfl
@[simp] theorem State.afterDraw_keys : s.afterDraw.keys = s.keys := rfl
@[simp] theorem State.afterDraw_clockAcc : s.afterDraw.clockAcc = s.clockAcc := rfl
@[simp] theorem State.afterDraw_cfg : s.afterDraw.cfg = s.cfg := rfl
@[simp] theorem State.afterDraw_rng : s.afterDraw.rng = { injected := s.rng.injected.tail, draws := s.rng.draws + 1 } := rfl
@[simp] theorem State.afterDraw_redraw : s.afterDraw.redraw = s.redraw := rfl

/-! `push` -/

@[simp] theorem State.push_v (w : Word) : (s.push w).v = s.v := rfl
@[simp] theorem State.push_i (w : Word) : (s.push w).i = s.i := rfl
@[simp] theorem State.push_pc (w : Word) : (s.push w).pc = s.pc := rfl
@[simp] theorem State.push_sp (w : Word) : (s.push w).sp = s.sp + 1 := rfl
@[simp] theorem State.push_stack (w : Word) : (s.push w).stack = s.stack.setIfInBounds s.sp.toNat w := rfl
@[simp] theorem State.push_dt (w : Word) : (s.push w).dt = s.dt := rfl
@[simp] theorem State.push_st (w : Word) : (s.push w).st = s.st := rfl
@[simp] theorem State.push_accDT (w : Word) : (s.push w).accDT = s.accDT := rfl
@[simp] theorem State.push_accST (w : Word) : (s.push w).accST = s.accST := rfl
@[simp] theorem State.push_mem (w : Word) : (s.push w).mem = s.mem := rfl
@[simp] theorem State.push_fb (w : Word) : (s.push w).fb = s.fb := rfl
@[simp] theorem State.push_keys (w : Word) : (s.push w).keys = s.keys := rfl
@[simp] theorem State.push_clockAcc (w : Word) : (s.push w).clockAcc = s.clockAcc := rfl
@[simp] theorem State.push_cfg (w : Word) : (s.push w).cfg = s.cfg := rfl
@[simp] theorem State.push_rng (w : Word) : (s.push w).rng = s.rng := rfl
@[simp] theorem State.push_redraw (w : Word) : (s.push w).redraw = s.redraw := rfl

/-! `pop` -/

@[simp] theorem State.pop_v : s.pop.v = s.v := rfl
@[simp] theorem State.pop_i : s.pop.i = s.i := rfl
@[simp] theorem State.pop_pc : s.pop.pc = s.pc := rfl
@[simp] theorem State.pop_sp : s.pop.sp = s.sp - 1 := rfl
@[simp] theorem State.pop_stack : s.pop.stack = s.stack := rfl
@[simp] theorem State.pop_dt : s.pop.dt = s.dt := rfl
@[simp] theorem State.pop_st : s.pop.st = s.st := rfl
@[simp] theorem State.pop_accDT : s.pop.accDT = s.accDT := rfl
@[simp] theorem State.pop_accST : s.pop.accST = s.accST := rfl
@[simp] theorem State.pop_mem : s.pop.mem = s.mem := rfl
@[simp] theorem State.pop_fb : s.pop.fb = s.fb := rfl
@[simp] theorem State.pop_keys : s.pop.keys = s.keys := rfl
@[simp] theorem State.pop_clockAcc : s.pop.clockAcc = s.clockAcc := rfl
@[simp] theorem State.pop_cfg : s.pop.cfg = s.cfg := rfl
@[simp] theorem State.pop_rng : s.pop.rng = s.rng := rfl
@[simp] theorem State.pop_redraw : s.pop.redraw = s.redraw := rfl

/-! `finish` -/

@[simp] theorem State.finish_v (a : PcAction) (r : Bool) : (s.finish a r).v = s.v := rfl
@[simp] theorem State.finish_i (a : PcAction) (r : Bool) : (s.finish a r).i = s.i := rfl
@[simp] theorem State.finish_pc (a : PcAction) (r : Bool) : (s.finish a r).pc = pcAfter s.pc a := rfl
@[simp] theorem State.finish_sp (a : PcAction) (r : Bool) : (s.finish a r).sp = s.sp := rfl
@[simp] theorem State.finish_stack (a : PcAction) (r : Bool) : (s.finish a r).stack = s.stack := rfl
@[simp] theorem State.finish_dt (a : PcAction) (r : Bool) : (s.finish a r).dt = s.dt := rfl
@[simp] theorem State.finish_st (a : PcAction) (r : Bool) : (s.finish a r).st = s.st := rfl
@[simp] theorem State.finish_accDT (a : PcAction) (r : Bool) : (s.finish a r).accDT = s.accDT := rfl
@[simp] theorem State.finish_accST (a : PcAction) (r : Bool) : (s.finish a r).accST = s.accST := rfl
@[simp] theorem State.finish_mem (a : PcAction) (r : Bool) : (s.finish a r).mem = s.mem := rfl
@[simp] theorem State.finish_fb (a : PcAction) (r : Bool) : (s.finish a r).fb = s.fb := rfl
@[simp] theorem State.finish_keys (a : PcAction) (r : Bool) : (s.finish a r).keys = s.keys := rfl
@[simp] theorem State.finish_clockAcc (a : PcAction) (r : Bool) : (s.finish a r).clockAcc = s.clockAcc := rfl
@[simp] theorem State.finish_cfg (a : PcAction) (r : Bool) : (s.finish a r).cfg = s.cfg := rfl
@[simp] theorem State.finish_rng (a : PcAction) (r : Bool) : (s.finish a r).rng = s.rng := rfl
@[simp] theorem State.finish_redraw (a : PcAction) (r : Bool) : (s.finish a r).redraw = r := rfl

/-! `withRedraw` -/

@[simp] theorem State.withRedraw_v (b : Bool) : (s.withRedraw b).v = s.v := rfl
@[simp] theorem State.withRedraw_i (b : Bool) : (s.withRedraw b).i = s.i := rfl
@[simp] theorem State.withRedraw_pc (b : Bool) : (s.withRedraw b).pc = s.pc := rfl
@[simp] theorem State.withRedraw_sp (b : Bool) : (s.withRedraw b).sp = s.sp := rfl
@[simp] theorem State.withRedraw_stack (b : Bool) : (s.withRedraw b).stack = s.stack := rfl
@[simp] theorem State.withRedraw_dt (b : Bool) : (s.withRedraw b).dt = s.dt := rfl
@[simp] theorem State.withRedraw_st (b : Bool) : (s.withRedraw b).st = s.st := rfl
@[simp] theorem State.withRedraw_accDT (b : Bool) : (s.withRedraw b).accDT = s.accDT := rfl
@[simp] theorem State.withRedraw_accST (b : Bool) : (s.withRedraw b).accST = s.accST := rfl
@[simp] theorem State.withRedraw_mem (b : Bool) : (s.withRedraw b).mem = s.mem := rfl
@[simp] theorem State.withRedraw_fb (b : Bool) : (s.withRedraw b).fb = s.fb := rfl
@[simp] theorem State.withRedraw_keys (b : Bool) : (s.withRedraw b).keys = s.keys := rfl
@[simp] theorem State.withRedraw_clockAcc (b : Bool) : (s.withRedraw b).clockAcc = s.clockAcc := rfl
@[simp] theorem State.withRedraw_cfg (b : Bool) : (s.withRedraw b).cfg = s.cfg := rfl
@[simp] theorem State.withRedraw_rng (b : Bool) : (s.withRedraw b).rng = s.rng := rfl
@[simp] theorem State.withRedraw_redraw (b : Bool) : (s.withRedraw b).redraw = b := rfl

@[simp] theorem State.withRedraw_withRedraw (b c : Bool) : (s.withRedraw b).withRedraw c = s.withRedraw c := rfl

/-! `setFlag` -/

@[simp] theorem State.setFlag_v (f : Bool) : (s.setFlag f).v = s.v.set regVF (flagByte f) := rfl
@[simp] theorem State.setFlag_i (f : Bool) : (s.setFlag f).i = s.i := rfl
@[simp] theorem State.setFlag_pc (f : Bool) : (s.setFlag f).pc = s.pc := rfl
@[simp] theorem State.setFlag_sp (f : Bool) : (s.setFlag f).sp = s.sp := rfl
@[simp] theorem State.setFlag_stack (f : Bool) : (s.setFlag f).stack = s.stack := rfl
@[simp] theorem State.setFlag_dt (f : Bool) : (s.setFlag f).dt = s.dt := rfl
@[simp] theorem State.setFlag_st (f : Bool) : (s.setFlag f).st = s.st := rfl
@[simp] theorem State.setFlag_accDT (f : Bool) : (s.setFlag f).accDT = s.accDT := rfl
@[simp] theorem State.setFlag_accST (f : Bool) : (s.setFlag f).accST = s.accST := rfl
@[simp] theorem State.setFlag_mem (f : Bool) : (s.setFlag f).mem = s.mem := rfl
@[simp] theorem State.setFlag_fb (f : Bool) : (s.setFlag f).fb = s.fb := rfl
@[simp] theorem State.setFlag_keys (f : Bool) : (s.setFlag f).keys = s.keys := rfl
@[simp] theorem State.setFlag_clockAcc (f : Bool) : (s.setFlag f).clockAcc = s.clockAcc := rfl
@[simp] theorem State.setFlag_cfg (f : Bool) : (s.setFlag f).cfg = s.cfg := rfl
@[simp] theorem State.setFlag_rng (f : Bool) : (s.setFlag f).rng = s.rng := rfl
@[simp] theorem State.setFlag_redraw (f : Bool) : (s.setFlag f).redraw = s.redraw := rfl

/-! `setFb` -/

@[simp] theorem State.setFb_v (fb : Framebuffer) : (s.setFb fb).v = s.v := rfl
@[simp] theorem State.setFb_i (fb : Framebuffer) : (s.setFb fb).i = s.i := rfl
@[simp] theorem State.setFb_pc (fb : Framebuffer) : (s.setFb fb).pc = s.pc := rfl
@[simp] theorem State.setFb_sp (fb : Framebuffer) : (s.setFb fb).sp = s.sp := rfl
@[simp] theorem State.setFb_stack (fb : Framebuffer) : (s.setFb fb).stack = s.stack := rfl
@[simp] theorem State.setFb_dt (fb : Framebuffer) : (s.setFb fb).dt = s.dt := rfl
@[simp] theorem State.setFb_st (fb : Framebuffer) : (s.setFb fb).st = s.st := rfl
@[simp] theorem State.setFb_accDT (fb : Framebuffer) : (s.setFb fb).accDT = s.accDT := rfl
@[simp] theorem State.setFb_accST (fb : Framebuffer) : (s.setFb fb).accST = s.accST := rfl
@[simp] theorem State.setFb_mem (fb : Framebuffer) : (s.setFb fb).mem = s.mem := rfl
@[simp] theorem State.setFb_fb (fb : Framebuffer) : (s.setFb fb).fb = fb := rfl
@[simp] theorem State.setFb_keys (fb : Framebuffer) : (s.setFb fb).keys = s.keys := rfl
@[simp] theorem State.setFb_clockAcc (fb : Framebuffer) : (s.setFb fb).clockAcc = s.clockAcc := rfl
@[simp] theorem State.setFb_cfg (fb : Framebuffer) : (s.setFb fb).cfg = s.cfg := rfl
@[simp] theorem State.setFb_rng (fb : Framebuffer) : (s.setFb fb).rng = s.rng := rfl
@[simp] theorem State.setFb_redraw (fb : Framebuffer) : (s.setFb fb).redraw = s.redraw := rfl

/-! `takePeriod` -/

@[simp] theorem State.takePeriod_v (p : Rat) : (s.takePeriod p).v = s.v := rfl
@[simp] theorem State.takePeriod_i (p : Rat) : (s.takePeriod p).i = s.i := rfl
@[simp] theorem State.takePeriod_pc (p : Rat) : (s.takePeriod p).pc = s.pc := rfl
@[simp] theorem State.takePeriod_sp (p : Rat) : (s.takePeriod p).sp = s.sp := rfl
@[simp] theorem State.takePeriod_stack (p : Rat) : (s.takePeriod p).stack = s.stack := rfl
@[simp] theorem State.takePeriod_dt (p : Rat) : (s.takePeriod p).dt = s.dt := rfl
@[simp] theorem State.takePeriod_st (p : Rat) : (s.takePeriod p).st = s.st := rfl
@[simp] theorem State.takePeriod_accDT (p : Rat) : (s.takePeriod p).accDT = s.accDT := rfl
@[simp] theorem State.takePeriod_accST (p : Rat) : (s.takePeriod p).accST = s.accST := rfl
@[simp] theorem State.takePeriod_mem (p : Rat) : (s.takePeriod p).mem = s.mem := rfl
@[simp] theorem State.takePeriod_fb (p : Rat) : (s.takePeriod p).fb = s.fb := rfl
@[simp] theorem State.takePeriod_keys (p : Rat) : (s.takePeriod p).keys = s.keys := rfl
@[simp] theorem State.takePeriod_clockAcc (p : Rat) : (s.takePeriod p).clockAcc = s.clockAcc - p := rfl
@[simp] theorem State.takePeriod_cfg (p : Rat) : (s.takePeriod p).cfg = s.cfg := rfl
@[simp] theorem State.takePeriod_rng (p : Rat) : (s.takePeriod p).rng = s.rng := rfl
@[simp] theorem State.takePeriod_redraw (p : Rat) : (s.takePeriod p).redraw = s.redraw := rfl

/-! `addElapsed` -/

@[simp] theorem State.addElapsed_v (e : Nat) : (s.addElapsed e).v = s.v := rfl
@[simp] theorem State.addElapsed_i (e : Nat) : (s.addElapsed e).i = s.i := rfl
@[simp] theorem State.addElapsed_pc (e : Nat) : (s.addElapsed e).pc = s.pc := rfl
@[simp] theorem State.addElapsed_sp (e : Nat) : (s.addElapsed e).sp = s.sp := rfl
@[simp] theorem State.addElapsed_stack (e : Nat) : (s.addElapsed e).stack = s.stack := rfl
@[simp] theorem State.addElapsed_dt (e : Nat) : (s.addElapsed e).dt = s.dt := rfl
@[simp] theorem State.addElapsed_st (e : Nat) : (s.addElapsed e).st = s.st := rfl
@[simp] theorem State.addElapsed_accDT (e : Nat) : (s.addElapsed e).accDT = s.accDT := rfl
@[simp] theorem State.addElapsed_accST (e : Nat) : (s.addElapsed e).accST = s.accST := rfl
@[simp] theorem State.addElapsed_mem (e : Nat) : (s.addElapsed e).mem = s.mem := rfl
@[simp] theorem State.addElapsed_fb (e : Nat) : (s.addElapsed e).fb = s.fb := rfl
@[simp] theorem State.addElapsed_keys (e : Nat) : (s.addElapsed e).keys = s.keys := rfl
@[simp] theorem State.addElapsed_clockAcc (e : Nat) : (s.addElapsed e).clockAcc = s.clockAcc + (e : Rat) := rfl
@[simp] theorem State.addElapsed_cfg (e : Nat) : (s.addElapsed e).cfg = s.cfg := rfl
@[simp] theorem State.addElapsed_rng (e : Nat) : (s.addElapsed e).rng = s.rng := rfl
@[simp] theorem State.addElapsed_redraw (e : Nat) : (s.addElapsed e).redraw = s.redraw := rfl

/-! `clearReleasedKeys` -/

@[simp] theorem clearReleasedKeys_v : (clearReleasedKeys s).v = s.v := rfl
@[simp] theorem clearReleasedKeys_i : (clearReleasedKeys s).i = s.i := rfl
@[simp] theorem clearReleasedKeys_pc : (clearReleasedKeys s).pc = s.pc := rfl
@[simp] theorem clearReleasedKeys_sp : (clearReleasedKeys s).sp = s.sp := rfl
@[simp] theorem clearReleasedKeys_stack : (clearReleasedKeys s).stack = s.stack := rfl
@[simp] theorem clearReleasedKeys_dt : (clearReleasedKeys s).dt = s.dt := rfl
@[simp] theorem clearReleasedKeys_st : (clearReleasedKeys s).st = s.st := rfl
@[simp] theorem clearReleasedKeys_accDT : (clearReleasedKeys s).accDT = s.accDT := rfl
@[simp] theorem clearReleasedKeys_accST : (clearReleasedKeys s).accST = s.accST := rfl
@[simp] theorem clearReleasedKeys_mem : (clearReleasedKeys s).mem = s.mem := rfl
@[simp] theorem clearReleasedKeys_fb : (clearReleasedKeys s).fb = s.fb := rfl
@[simp] theorem clearReleasedKeys_clockAcc : (clearReleasedKeys s).clockAcc = s.clockAcc := rfl
@[simp] theorem clearReleasedKeys_cfg : (clearReleasedKeys s).cfg = s.cfg := rfl
@[simp] theorem clearReleasedKeys_rng : (clearReleasedKeys s).rng = s.rng := rfl
@[simp] theorem clearReleasedKeys_redraw : (clearReleasedKeys s).redraw = s.redraw := rfl

/-! `decayTimers` -/

@[simp] theorem decayTimers_v : (decayTimers s).v = s.v := rfl
@[simp] theorem decayTimers_i : (decayTimers s).i = s.i := rfl
@[simp] theorem decayTimers_pc : (decayTimers s).pc = s.pc := rfl
@[simp] theorem decayTimers_sp : (decayTimers s).sp = s.sp := rfl
@[simp] theorem decayTimers_stack : (decayTimers s).stack = s.stack := rfl
@[simp] theorem decayTimers_mem : (decayTimers s).mem = s.mem := rfl
@[simp] theorem decayTimers_fb : (decayTimers s).fb = s.fb := rfl
@[simp] theorem decayTimers_keys : (decayTimers s).keys = s.keys := rfl
@[simp] theorem decayTimers_clockAcc : (decayTimers s).clockAcc = s.clockAcc := rfl
@[simp] theorem decayTimers_cfg : (decayTimers s).cfg = s.cfg := rfl
@[simp] theorem decayTimers_rng : (decayTimers s).rng = s.rng := rfl
@[simp] theorem decayTimers_redraw : (decayTimers s).redraw = s.redraw := rfl

/-! `endCycle` -/

@[simp] theorem endCycle_v : (endCycle s).v = s.v := rfl
@[simp] theorem endCycle_i : (endCycle s).i = s.i := rfl
@[simp] theorem endCycle_pc : (endCycle s).pc = s.pc := rfl
@[simp] theorem endCycle_sp : (endCycle s).sp = s.sp := rfl
@[simp] theorem endCycle_stack : (endCycle s).stack = s.stack := rfl
@[simp] theorem endCycle_mem : (endCycle s).mem = s.mem := rfl
@[simp] theorem endCycle_fb : (endCycle s).fb = s.fb := rfl
@[simp] theorem endCycle_clockAcc : (endCycle s).clockAcc = s.clockAcc := rfl
@[simp] theorem endCycle_cfg : (endCycle s).cfg = s.cfg := rfl
@[simp] theorem endCycle_rng : (endCycle s).rng = s.rng := rfl
@[simp] theorem endCycle_redraw : (endCycle s).redraw = false := rfl
@[simp] theorem endCycle_keys : (endCycle s).keys = (clearReleasedKeys s).keys := rfl
@[simp] theorem endCycle_withRedraw (b : Bool) : endCycle (s.withRedraw b) = endCycle s := rfl

theorem endCycle_delay : ((endCycle s).dt, (endCycle s).accDT) =
    decayOne s.dt s.accDT (secondsPerCycle s.cfg) := rfl

theorem endCycle_sound : ((endCycle s).st, (endCycle s).accST) =
    decayOne s.st s.accST (secondsPerCycle s.cfg) := rfl

theorem decayTimers_delay : ((decayTimers s).dt, (decayTimers s).accDT) =
    decayOne s.dt s.accDT (secondsPerCycle s.cfg) := rfl

theorem decayTimers_sound : ((decayTimers s).st, (decayTimers s).accST) =
    decayOne s.st s.accST (secondsPerCycle s.cfg) := rfl

end Sys2Proof.Machine
end

