-- ==== Sys2Proof/Laws/Memory.lean ====
section
/-! SUPPORT. The laws of memory: a read after a write, that every write keeps the canonical form, and that the form is
canonical. -/

namespace Sys2Proof.Machine

namespace Memory

/-! ### Read after write -/

theorem find?_put (m : Memory) (a : Nat) (b : Byte) (c : Nat) :
    find? (put m a b) c = if c = a then some b else find? m c := by
  induction m with
  | nil => simp [put, find?, eq_comm]
  | cons e m ih =>
    obtain ⟨a', b'⟩ := e
    simp only [put]
    split_ifs <;> simp only [find?, ih] <;> split_ifs <;> first | rfl | omega

theorem find?_erase (m : Memory) (a c : Nat) :
    find? (erase m a) c = if c = a then none else find? m c := by
  induction m with
  | nil => simp [erase, find?]
  | cons e m ih =>
    obtain ⟨a', b'⟩ := e
    simp only [erase]
    split_ifs <;> simp only [find?, ih] <;> split_ifs <;> first | rfl | omega

/-- A read after a write gives the value written at its address, and what was there before at every other. -/
theorem read_write (g : Glyphs) (m : Memory) (a : Nat) (b : Byte) (c : Nat) :
    read g (write g m a b) c = if c = a then b else read g m c := by
  unfold read write
  by_cases hb : b = resetByte g a
  · rw [if_pos hb, find?_erase]
    split_ifs with h
    · subst h
      simpa using hb.symm
    · rfl
  · rw [if_neg hb, find?_put]
    split_ifs <;> rfl

/-- A read after a write of several bytes. -/
theorem read_writeBytes (g : Glyphs) (bytes : List Byte) (m : Memory) (addr c : Nat) :
    read g (writeBytes g m addr bytes) c =
      if addr ≤ c ∧ c < addr + bytes.length then bytes.getD (c - addr) 0 else read g m c := by
  induction bytes generalizing m addr with
  | nil =>
    rw [if_neg (by simp)]
    rfl
  | cons b bs ih =>
    rw [writeBytes, ih, read_write]
    by_cases h0 : c = addr
    · subst h0
      rw [if_neg (by omega), if_pos rfl, if_pos (by simp)]
      simp
    · by_cases h1 : addr + 1 ≤ c ∧ c < addr + 1 + bs.length
      · rw [if_pos h1, if_pos (by simp; omega), show c - addr = (c - (addr + 1)) + 1 by omega]
        simp
      · rw [if_neg h1, if_neg h0, if_neg (by simp; omega)]

/-! ### The canonical form -/

theorem wfFrom_cons (g : Glyphs) (lo a : Nat) (b : Byte) (m : Memory) :
    wfFrom g lo ((a, b) :: m) = true ↔ lo ≤ a ∧ a < 4096 ∧ b ≠ resetByte g a ∧ wfFrom g (a + 1) m = true := by
  simp only [wfFrom, Bool.and_eq_true, decide_eq_true_eq, bne_iff_ne, and_assoc]
  simp only [Config.memSize]

theorem wfFrom_mono (g : Glyphs) (m : Memory) {lo lo' : Nat} (h : lo' ≤ lo) (hm : wfFrom g lo m = true) :
    wfFrom g lo' m = true := by
  cases m with
  | nil => rfl
  | cons e m =>
    obtain ⟨a, b⟩ := e
    rw [wfFrom_cons] at hm ⊢
    exact ⟨by omega, hm.2⟩

theorem wfFrom_put (g : Glyphs) (m : Memory) (lo a : Nat) (b : Byte) (ha : lo ≤ a) (hb : a < 4096)
    (hne : b ≠ resetByte g a) (hm : wfFrom g lo m = true) : wfFrom g lo (put m a b) = true := by
  induction m generalizing lo with
  | nil => simpa [put, wfFrom_cons] using ⟨ha, hb, hne, rfl⟩
  | cons e m ih =>
    obtain ⟨a', b'⟩ := e
    obtain ⟨h1, h2, h3, h4⟩ := (wfFrom_cons ..).1 hm
    simp only [put]
    split_ifs with hlt heq
    · exact (wfFrom_cons ..).2 ⟨ha, hb, hne, (wfFrom_cons ..).2 ⟨by omega, h2, h3, h4⟩⟩
    · subst heq
      exact (wfFrom_cons ..).2 ⟨ha, hb, hne, h4⟩
    · exact (wfFrom_cons ..).2 ⟨h1, h2, h3, ih (a' + 1) (by omega) h4⟩

theorem wfFrom_erase (g : Glyphs) (m : Memory) (lo a : Nat) (hm : wfFrom g lo m = true) :
    wfFrom g lo (erase m a) = true := by
  induction m generalizing lo with
  | nil => exact hm
  | cons e m ih =>
    obtain ⟨a', b'⟩ := e
    obtain ⟨h1, h2, h3, h4⟩ := (wfFrom_cons ..).1 hm
    simp only [erase]
    split_ifs
    · exact wfFrom_mono g _ (by omega) (ih (a' + 1) h4)
    · exact (wfFrom_cons ..).2 ⟨h1, h2, h3, ih (a' + 1) h4⟩

/-- A write below `MEM_SIZE` keeps the canonical form. -/
theorem wf_write (g : Glyphs) (m : Memory) (a : Nat) (b : Byte) (ha : a < 4096) (hm : wf g m = true) :
    wf g (write g m a b) = true := by
  unfold write
  split_ifs with h
  · exact wfFrom_erase g m 0 a hm
  · exact wfFrom_put g m 0 a b (by omega) ha h hm

theorem wf_writeBytes (g : Glyphs) (bytes : List Byte) (m : Memory) (addr : Nat)
    (h : addr + bytes.length ≤ 4096) (hm : wf g m = true) : wf g (writeBytes g m addr bytes) = true := by
  induction bytes generalizing m addr with
  | nil => exact hm
  | cons b bs ih =>
    simp only [List.length_cons] at h
    exact ih _ (addr + 1) (by omega) (wf_write g m addr b (by omega) hm)

/-- No address below the first is listed. -/
theorem find?_of_lt (g : Glyphs) (m : Memory) (lo a : Nat) (hm : wfFrom g lo m = true) (ha : a < lo) :
    find? m a = none := by
  induction m generalizing lo with
  | nil => rfl
  | cons e m ih =>
    obtain ⟨a', b'⟩ := e
    obtain ⟨h1, _, _, h4⟩ := (wfFrom_cons ..).1 hm
    rw [find?, if_neg (by omega)]
    exact ih (a' + 1) h4 (by omega)

/-- A listed byte differs from the reset contents, so what is listed shows in what is read. -/
theorem find?_ne_reset (g : Glyphs) (m : Memory) (lo a : Nat) (b : Byte) (hm : wfFrom g lo m = true)
    (h : find? m a = some b) : b ≠ resetByte g a := by
  induction m generalizing lo with
  | nil => cases h
  | cons e m ih =>
    obtain ⟨a', b'⟩ := e
    obtain ⟨_, _, h3, h4⟩ := (wfFrom_cons ..).1 hm
    rw [find?] at h
    split_ifs at h with heq
    · subst heq
      cases h
      exact h3
    · exact ih (a' + 1) h4 h

theorem find?_of_read (g : Glyphs) (m m' : Memory) (hm : wf g m = true) (hm' : wf g m' = true)
    (h : ∀ a, read g m a = read g m' a) (a : Nat) : find? m a = find? m' a := by
  have ha := h a
  unfold read at ha
  cases h1 : find? m a with
  | none =>
    cases h2 : find? m' a with
    | none => rfl
    | some b =>
      rw [h1, h2] at ha
      exact absurd ha.symm (find?_ne_reset g m' 0 a b hm' h2)
  | some b =>
    cases h2 : find? m' a with
    | none =>
      rw [h1, h2] at ha
      exact absurd ha (find?_ne_reset g m 0 a b hm h1)
    | some b' =>
      rw [h1, h2] at ha
      exact congrArg some ha

end Memory

/-! ### The two access primitives -/

/-- What `MemRead` can do: fault past the end of memory, or give the bytes (R42). -/
theorem memRead_cases (s : State) (addr n : Nat) :
    (addr + n > 4096 ∧ memRead s addr n = .error (.memoryFault addr n s.pc)) ∨
    (addr + n ≤ 4096 ∧ memRead s addr n = .ok ((List.range n).map fun j => s.byteAt (addr + j))) := by
  unfold memRead
  by_cases h : addr + n > 4096
  · exact .inl ⟨h, by simp [h]⟩
  · exact .inr ⟨by omega, by simp [h]⟩

/-- What `MemWrite` can do: fault past the end of memory with nothing written, or write every byte (R43). -/
theorem memWrite_cases (s : State) (addr : Nat) (bytes : List Byte) :
    (addr + bytes.length > 4096 ∧ memWrite s addr bytes = .error (.memoryFault addr bytes.length s.pc)) ∨
    (addr + bytes.length ≤ 4096 ∧ memWrite s addr bytes = .ok (s.setBytes addr bytes)) := by
  unfold memWrite
  by_cases h : addr + bytes.length > 4096
  · exact .inl ⟨h, by simp [h]⟩
  · exact .inr ⟨by omega, by simp [h]⟩

/-- A byte after a store: the stored byte inside the stored range, the old byte outside it. -/
theorem byteAt_setBytes (s : State) (addr : Nat) (bytes : List Byte) (c : Nat) :
    (s.setBytes addr bytes).byteAt c =
      if addr ≤ c ∧ c < addr + bytes.length then bytes.getD (c - addr) 0 else s.byteAt c :=
  Memory.read_writeBytes s.cfg.glyphs bytes s.mem addr c

/-- `MemWrite` keeps the canonical form of memory. -/
theorem memWrite_wf {s t : State} {addr : Nat} {bytes : List Byte} (h : memWrite s addr bytes = .ok t)
    (hm : Memory.wf s.cfg.glyphs s.mem = true) : Memory.wf t.cfg.glyphs t.mem = true := by
  rcases memWrite_cases s addr bytes with ⟨_, e⟩ | ⟨hb, e⟩ <;> rw [e] at h <;> cases h
  exact Memory.wf_writeBytes s.cfg.glyphs bytes s.mem addr hb hm

/-- Memory is in canonical form after reset. -/
theorem reset_wf : Memory.wf State.reset.cfg.glyphs State.reset.mem = true := rfl

/-- The byte a read gives depends on the memory and the glyphs alone. -/
theorem byteAt_congr {s t : State} (hm : t.mem = s.mem) (hg : t.cfg.glyphs = s.cfg.glyphs) (a : Nat) :
    t.byteAt a = s.byteAt a := by
  unfold State.byteAt
  rw [hm, hg]

/-- What fetch can do (R71). -/
theorem fetch_cases (s : State) :
    (s.pc.toNat + 2 > 4096 ∧ fetch s = .error (.memoryFault s.pc.toNat 2 s.pc)) ∨
    (s.pc.toNat + 2 ≤ 4096 ∧ fetch s = .ok s.wordAtPc) := by
  unfold fetch
  simp only [Config.instrWidth]
  rcases memRead_cases s s.pc.toNat 2 with ⟨h, e⟩ | ⟨h, e⟩
  · exact .inl ⟨h, by rw [e]⟩
  · exact .inr ⟨h, by rw [e]; rfl⟩

end Sys2Proof.Machine
end

