-- ==== Sys2Proof/Laws/Registers.lean ====
section
/-! SUPPORT. Registers, the stack, the program counter and the frame of each update. -/

namespace Sys2Proof.Machine

variable (s : State)

@[simp] theorem reg_setReg (x y : RegIdx) (b : Byte) :
    (s.setReg x b).reg y = if y = x then b else s.reg y := by
  simp only [State.reg, State.setReg, Fin.getElem_fin, Vector.getElem_set]
  by_cases h : y = x
  · subst h
    simp
  · rw [if_neg h, if_neg fun e => h (Fin.ext e.symm)]

@[simp] theorem reg_setFlag (y : RegIdx) (f : Bool) :
    (s.setFlag f).reg y = if y = regVF then flagByte f else s.reg y := reg_setReg s regVF y (flagByte f)

theorem reg_of_v {s t : State} (h : t.v = s.v) (y : RegIdx) : t.reg y = s.reg y := by
  unfold State.reg
  rw [h]

theorem getElem_setRegsFrom (bytes : List Byte) (v : Vector Byte 16) (k : Nat) (j : Nat) (hj : j < 16) :
    (setRegsFrom v k bytes)[j] = if k ≤ j ∧ j < k + bytes.length then bytes.getD (j - k) 0 else v[j] := by
  induction bytes generalizing v k with
  | nil =>
    rw [if_neg (by simp)]
    rfl
  | cons b bs ih =>
    rw [setRegsFrom, ih]
    by_cases h0 : j = k
    · subst h0
      rw [if_neg (by omega), if_pos (by simp)]
      simp
    · by_cases h1 : k + 1 ≤ j ∧ j < k + 1 + bs.length
      · rw [if_pos h1, if_pos (by simp; omega), show j - k = (j - (k + 1)) + 1 by omega]
        simp
      · rw [if_neg h1, if_neg (by simp; omega), Vector.getElem_setIfInBounds, if_neg (by omega)]

theorem reg_loadRegs (bytes : List Byte) (j : RegIdx) :
    (s.loadRegs bytes).reg j = if j.val < bytes.length then bytes.getD j.val 0 else s.reg j := by
  unfold State.reg State.loadRegs
  simp only [Fin.getElem_fin, getElem_setRegsFrom]
  simp

theorem length_dumpBytes (x : RegIdx) : (dumpBytes s x).length = x.val + 1 := by
  simp [dumpBytes, bulkCount]

theorem getD_dumpBytes (x j : RegIdx) (h : j.val ≤ x.val) : (dumpBytes s x).getD j.val 0 = s.reg j := by
  have hl : j.val < (dumpBytes s x).length := by
    rw [length_dumpBytes]
    omega
  rw [List.getD_eq_getElem _ _ hl]
  simp [dumpBytes, State.reg]

/-! ### The stack -/

theorem getElem_push (w : Word) (k : Fin 16) :
    (s.push w).stack[k] = if s.sp.toNat = k.val then w else s.stack[k] := by
  simp [State.push, Vector.getElem_setIfInBounds]

theorem stackTop_of_occupied (k : Fin 16) (h : s.sp.toNat = k.val + 1) : s.stackTop = s.stack[k] := by
  simp [State.stackTop, State.stackEntry, h]

/-! ### Frames: an update leaves every part alone but those it writes -/

theorem KeepsAllBut.mono {W W' : Part → Prop} {s t : State} (h : KeepsAllBut W s t) (hw : ∀ p, W p → W' p) :
    KeepsAllBut W' s t := fun p hp => h p fun hW => hp (hw p hW)

theorem KeepsAllBut.trans {W : Part → Prop} {s t u : State} (h : KeepsAllBut W s t) (h' : KeepsAllBut W t u) :
    KeepsAllBut W s u := by
  intro p hp
  have h1 := h p hp
  have h2 := h' p hp
  cases p <;> exact h2.trans h1

theorem keeps_finish (a : PcAction) (r : Bool) : KeepsAllBut Part.sequencing s (s.finish a r) := by
  intro p hp
  cases p <;> first | rfl | exact absurd (.inl rfl) hp | exact absurd (.inr rfl) hp

theorem keeps_setReg (x : RegIdx) (b : Byte) : KeepsAllBut (fun p => p = .reg x) s (s.setReg x b) := by
  intro p hp
  cases p with
  | reg y =>
    have : y ≠ x := fun h => hp (by rw [h])
    simp [Part.same, this]
  | _ => rfl

theorem keeps_setFlag (f : Bool) : KeepsAllBut (fun p => p = .reg regVF) s (s.setFlag f) :=
  keeps_setReg s regVF (flagByte f)

theorem keeps_loadRegs (bytes : List Byte) :
    KeepsAllBut (fun p => ∃ j : RegIdx, j.val < bytes.length ∧ p = .reg j) s (s.loadRegs bytes) := by
  intro p hp
  cases p with
  | reg y =>
    have : ¬ y.val < bytes.length := fun h => hp ⟨y, h, rfl⟩
    simp only [Part.same, reg_loadRegs, if_neg this]
  | _ => rfl

theorem keeps_setI (w : Word) : KeepsAllBut (fun p => p = .i) s (s.setI w) := by
  intro p hp
  cases p <;> first | rfl | exact absurd rfl hp

theorem keeps_setDT (b : Byte) : KeepsAllBut (fun p => p = .dt ∨ p = .accDT) s (s.setDT b) := by
  intro p hp
  cases p <;> first | rfl | exact absurd (.inl rfl) hp | exact absurd (.inr rfl) hp

theorem keeps_setST (b : Byte) : KeepsAllBut (fun p => p = .st ∨ p = .accST) s (s.setST b) := by
  intro p hp
  cases p <;> first | rfl | exact absurd (.inl rfl) hp | exact absurd (.inr rfl) hp

theorem keeps_setBytes (addr : Nat) (bytes : List Byte) :
    KeepsAllBut (Part.bytesFrom addr bytes.length) s (s.setBytes addr bytes) := by
  intro p hp
  cases p with
  | byte a =>
    have : ¬ (addr ≤ a ∧ a < addr + bytes.length) := fun h => hp ⟨a, h.1, h.2, rfl⟩
    simp only [Part.same, byteAt_setBytes, if_neg this]
  | _ => rfl

theorem keeps_afterDraw : KeepsAllBut (fun p => p = .rng) s s.afterDraw := by
  intro p hp
  cases p <;> first | rfl | exact absurd rfl hp

theorem keeps_push (w : Word) (k : Fin 16) (h : s.sp.toNat = k.val) :
    KeepsAllBut (fun p => p = .stackEntry k ∨ p = .sp) s (s.push w) := by
  intro p hp
  cases p with
  | stackEntry j =>
    have : ¬ s.sp.toNat = j.val := fun e => hp (.inl (by rw [Fin.ext (e.symm.trans h)]))
    simp only [Part.same, getElem_push, if_neg this]
  | sp => exact absurd (.inr rfl) hp
  | _ => rfl

theorem keeps_pop : KeepsAllBut (fun p => p = .sp) s s.pop := by
  intro p hp
  cases p <;> first | rfl | exact absurd rfl hp

theorem keeps_setFb (fb : Framebuffer) : KeepsAllBut (fun p => ∃ x y, p = .pixel x y) s (s.setFb fb) := by
  intro p hp
  cases p with
  | pixel x y => exact absurd ⟨x, y, rfl⟩ hp
  | _ => rfl

theorem keeps_clearReleasedKeys : KeepsAllBut (fun p => ∃ k, p = .key k) s (clearReleasedKeys s) := by
  intro p hp
  cases p with
  | key k => exact absurd ⟨k, rfl⟩ hp
  | _ => rfl

theorem keeps_decayTimers :
    KeepsAllBut (fun p => p = .dt ∨ p = .accDT ∨ p = .st ∨ p = .accST) s (decayTimers s) := by
  intro p hp
  cases p <;> first | rfl | exact absurd (by simp) hp

/-- An instruction that completes with `Next` after an update: the update's frame, and the sequencing. -/
theorem keeps_complete {W : Part → Prop} {s t : State} (h : KeepsAllBut W s t) (a : PcAction) (r : Bool) :
    KeepsAllBut (fun p => W p ∨ p.sequencing) s (t.finish a r) :=
  (h.mono fun _ => Or.inl).trans ((keeps_finish t a r).mono fun _ => Or.inr)

end Sys2Proof.Machine
end

