-- ==== Sys2Proof/Laws/Framebuffer.lean ====
section
/-! SUPPORT. The framebuffer: what one toggle does, and the blit as a list of pixels toggled once each. -/

namespace Sys2Proof.Machine

@[simp] theorem Pixel.flip_flip (p : Pixel) : p.flip.flip = p := by cases p <;> rfl

namespace Framebuffer

/-- One toggle flips its pixel and keeps every other. -/
theorem get_toggle (fb : Framebuffer) (x x' : Fin 64) (y y' : Fin 32) :
    (fb.toggle x y).get x' y' = if x' = x ∧ y' = y then (fb.get x' y').flip else fb.get x' y' := by
  have hrow : (fb.toggle x y)[y'] = if y' = y then fb[y].set x (fb[y][x]).flip else fb[y'] := by
    simp only [toggle, Fin.getElem_fin, Vector.getElem_set, Fin.ext_iff, eq_comm]
  have hget : (fb.toggle x y).get x' y' = (if y' = y then fb[y].set x (fb[y][x]).flip else fb[y'])[x'] := by
    rw [get, hrow]
  rw [hget]
  by_cases hy : y' = y
  · subst hy
    simp only [if_pos, and_true, get, Fin.getElem_fin, Vector.getElem_set, Fin.ext_iff, eq_comm (a := x.val)]
    by_cases hx : x'.val = x.val
    · simp [hx]
    · simp [hx]
  · simp only [if_neg hy, if_neg fun e : x' = x ∧ y' = y => hy e.2, get]

@[simp] theorem get_blank (x : Fin 64) (y : Fin 32) : blank.get x y = .off := by
  simp [blank, get]

/-- Framebuffers that agree pixel by pixel are equal. -/
theorem ext_get {fb fb' : Framebuffer} (h : ∀ x y, fb.get x y = fb'.get x y) : fb = fb' := by
  apply Vector.ext
  intro y hy
  apply Vector.ext
  intro x hx
  exact h ⟨x, hx⟩ ⟨y, hy⟩

end Framebuffer

/-- `Place` in terms of where a bit lands (R131). -/
theorem place_eq_some (edge : SpriteEdge) (x0 y0 r c : Nat) (px : Fin 64) (py : Fin 32) :
    place edge (x0 + c) (y0 + r) = some (px, py) ↔ LandsOn edge x0 y0 r c px py := by
  cases edge with
  | clip =>
    simp only [place, LandsOn]
    constructor
    · intro h
      split_ifs at h with hb
      cases h
      exact ⟨rfl, rfl⟩
    · rintro ⟨h1, h2⟩
      rw [dif_pos ⟨by omega, by omega⟩]
      simp [h1, h2]
  | wrap =>
    simp only [place, LandsOn, Option.some.injEq, Prod.mk.injEq, Fin.ext_iff]

/-- One set bit that lands on a pixel. -/
def plot (acc : Framebuffer × Bool) (p : Fin 64 × Fin 32) : Framebuffer × Bool :=
  (acc.1.toggle p.1 p.2, acc.2 || decide (acc.1.get p.1 p.2 = .on))

/-- The pixels that the columns `c`, `c+1`, ... of one row land on, in drawing order. -/
def colHits (edge : SpriteEdge) (x0 py : Nat) (row : Byte) : Nat → Nat → List (Fin 64 × Fin 32)
  | 0, _ => []
  | todo + 1, c =>
    (if row.getLsbD (7 - c) then (place edge (x0 + c) py).toList else []) ++ colHits edge x0 py row todo (c + 1)

/-- The pixels that a sprite lands on, in drawing order. -/
def rowHits (edge : SpriteEdge) (x0 : Nat) : List Byte → Nat → List (Fin 64 × Fin 32)
  | [], _ => []
  | row :: rows, py => colHits edge x0 py row 8 0 ++ rowHits edge x0 rows (py + 1)

theorem drawBit_eq (edge : SpriteEdge) (px py : Nat) (acc : Framebuffer × Bool) :
    drawBit edge px py acc = (place edge px py).toList.foldl plot acc := by
  unfold drawBit
  cases place edge px py <;> rfl

theorem drawCols_eq (edge : SpriteEdge) (x0 py : Nat) (row : Byte) (todo c : Nat) (acc : Framebuffer × Bool) :
    drawCols edge x0 py row todo c acc = (colHits edge x0 py row todo c).foldl plot acc := by
  induction todo generalizing c acc with
  | zero => rfl
  | succ todo ih =>
    rw [drawCols, colHits, List.foldl_append, ih]
    split_ifs
    · rw [drawBit_eq]
    · rfl

theorem drawRows_eq (edge : SpriteEdge) (x0 : Nat) (rows : List Byte) (py : Nat) (acc : Framebuffer × Bool) :
    drawRows edge x0 rows py acc = (rowHits edge x0 rows py).foldl plot acc := by
  induction rows generalizing py acc with
  | nil => rfl
  | cons row rows ih => rw [drawRows, rowHits, List.foldl_append, ih, drawCols_eq]

/-- The blit toggles, in order, the pixels its set bits land on. -/
theorem draw_eq (edge : SpriteEdge) (fb : Framebuffer) (rows : List Byte) (x0 y0 : Nat) :
    draw edge fb rows x0 y0 = (rowHits edge x0 rows y0).foldl plot (fb, false) := drawRows_eq ..

theorem mem_colHits (edge : SpriteEdge) (x0 py : Nat) (row : Byte) (todo c : Nat) (p : Fin 64 × Fin 32) :
    p ∈ colHits edge x0 py row todo c ↔
      ∃ d, c ≤ d ∧ d < c + todo ∧ row.getLsbD (7 - d) = true ∧ place edge (x0 + d) py = some p := by
  induction todo generalizing c with
  | zero =>
    simp only [colHits, List.not_mem_nil, false_iff]
    rintro ⟨d, h1, h2, _⟩
    omega
  | succ todo ih =>
    rw [colHits, List.mem_append, ih]
    constructor
    · rintro (h | ⟨d, h1, h2, h3⟩)
      · split_ifs at h with hb
        · exact ⟨c, le_rfl, by omega, hb, by simpa using h⟩
        · cases h
      · exact ⟨d, by omega, by omega, h3⟩
    · rintro ⟨d, h1, h2, h3, h4⟩
      rcases Nat.eq_or_lt_of_le h1 with rfl | hlt
      · exact .inl (by simp [h3, h4])
      · exact .inr ⟨d, hlt, by omega, h3, h4⟩

theorem mem_rowHits (edge : SpriteEdge) (x0 : Nat) (rows : List Byte) (y0 : Nat) (p : Fin 64 × Fin 32) :
    p ∈ rowHits edge x0 rows y0 ↔ ∃ r c, SpriteBit rows r c ∧ place edge (x0 + c) (y0 + r) = some p := by
  induction rows generalizing y0 with
  | nil => simp [rowHits, SpriteBit]
  | cons row rows ih =>
    rw [rowHits, List.mem_append, ih, mem_colHits]
    constructor
    · rintro (⟨d, _, h2, h3, h4⟩ | ⟨r, c, ⟨b, h1, h2⟩, h3⟩)
      · exact ⟨0, d, ⟨row, rfl, by omega, h3⟩, h4⟩
      · exact ⟨r + 1, c, ⟨b, by simpa using h1, h2⟩, by rwa [show y0 + (r + 1) = y0 + 1 + r by omega]⟩
    · rintro ⟨r, c, ⟨b, h1, h2, h3⟩, h4⟩
      cases r with
      | zero =>
        cases (show row = b by simpa using h1)
        exact .inl ⟨c, by omega, by omega, h3, h4⟩
      | succ r =>
        exact .inr ⟨r, c, ⟨b, by simpa using h1, h2, h3⟩, by rwa [show y0 + 1 + r = y0 + (r + 1) by omega]⟩

/-- The pixels toggled are those covered. -/
theorem mem_rowHits_iff (edge : SpriteEdge) (x0 : Nat) (rows : List Byte) (y0 : Nat) (px : Fin 64) (py : Fin 32) :
    (px, py) ∈ rowHits edge x0 rows y0 ↔ Covered edge rows x0 y0 px py := by
  rw [mem_rowHits]
  unfold Covered
  simp only [place_eq_some]

/-- Two bits less than a display width and height apart land on different pixels (R134 c). -/
theorem landsOn_inj (edge : SpriteEdge) (x0 y0 r c r' c' : Nat) (px : Fin 64) (py : Fin 32)
    (hc : c < 64) (hc' : c' < 64) (hr : r < 32) (hr' : r' < 32)
    (h : LandsOn edge x0 y0 r c px py) (h' : LandsOn edge x0 y0 r' c' px py) : r = r' ∧ c = c' := by
  cases edge <;> simp only [LandsOn] at h h' <;> omega

theorem nodup_colHits (edge : SpriteEdge) (x0 py : Nat) (row : Byte) (todo c : Nat) (h : c + todo ≤ 64) :
    (colHits edge x0 py row todo c).Nodup := by
  induction todo generalizing c with
  | zero => exact List.nodup_nil
  | succ todo ih =>
    rw [colHits, List.nodup_append]
    refine ⟨?_, ih (c + 1) (by omega), ?_⟩
    · split_ifs
      · cases place edge (x0 + c) py <;> simp
      · exact List.nodup_nil
    · intro p hp q hq
      rintro rfl
      obtain ⟨d, h1, h2, _, h4⟩ := (mem_colHits ..).1 hq
      split_ifs at hp
      · have hp' : place edge (x0 + c) (py + 0) = some (p.1, p.2) := by simpa using hp
        have h4' : place edge (x0 + d) (py + 0) = some (p.1, p.2) := by simpa using h4
        have := landsOn_inj edge x0 py 0 c 0 d p.1 p.2 (by omega) (by omega) (by omega) (by omega)
          ((place_eq_some ..).1 hp') ((place_eq_some ..).1 h4')
        omega
      · cases hp

theorem nodup_rowHits (edge : SpriteEdge) (x0 : Nat) (rows : List Byte) (y0 : Nat) (h : rows.length ≤ 32) :
    (rowHits edge x0 rows y0).Nodup := by
  induction rows generalizing y0 with
  | nil => exact List.nodup_nil
  | cons row rows ih =>
    simp only [List.length_cons] at h
    rw [rowHits, List.nodup_append]
    refine ⟨nodup_colHits edge x0 y0 row 8 0 (by omega), ih (y0 + 1) (by omega), ?_⟩
    rintro p hp q hq rfl
    obtain ⟨d, _, h2, _, h4⟩ := (mem_colHits ..).1 hp
    obtain ⟨r, c, ⟨b, h5, h6, _⟩, h7⟩ := (mem_rowHits ..).1 hq
    have hr : r < rows.length := (List.getElem?_eq_some_iff.1 h5).1
    have h4' : place edge (x0 + d) (y0 + 0) = some (p.1, p.2) := by simpa using h4
    have h7' : place edge (x0 + c) (y0 + (r + 1)) = some (p.1, p.2) := by
      rw [show y0 + (r + 1) = y0 + 1 + r by omega]
      simpa using h7
    have := landsOn_inj edge x0 y0 0 d (r + 1) c p.1 p.2 (by omega) (by omega) (by omega) (by omega)
      ((place_eq_some ..).1 h4') ((place_eq_some ..).1 h7')
    omega

theorem get_foldl_plot (hits : List (Fin 64 × Fin 32)) (hn : hits.Nodup) (acc : Framebuffer × Bool)
    (x : Fin 64) (y : Fin 32) :
    (hits.foldl plot acc).1.get x y = if (x, y) ∈ hits then (acc.1.get x y).flip else acc.1.get x y := by
  induction hits generalizing acc with
  | nil => simp
  | cons p hits ih =>
    obtain ⟨hp, hn⟩ := List.nodup_cons.1 hn
    rw [List.foldl_cons, ih hn, plot, Framebuffer.get_toggle]
    by_cases h : x = p.1 ∧ y = p.2
    · have hxy : (x, y) = p := Prod.ext h.1 h.2
      rw [hxy, if_neg hp, if_pos h, if_pos (by simp)]
    · have hxy : (x, y) ≠ p := fun e => h ⟨congrArg Prod.fst e, congrArg Prod.snd e⟩
      rw [if_neg h]
      simp [hxy]

theorem collided_foldl_plot (hits : List (Fin 64 × Fin 32)) (hn : hits.Nodup) (acc : Framebuffer × Bool) :
    (hits.foldl plot acc).2 = true ↔ acc.2 = true ∨ ∃ p ∈ hits, acc.1.get p.1 p.2 = .on := by
  induction hits generalizing acc with
  | nil => simp
  | cons p hits ih =>
    obtain ⟨hp, hn⟩ := List.nodup_cons.1 hn
    rw [List.foldl_cons, ih hn]
    have hq : ∀ q ∈ hits, (plot acc p).1.get q.1 q.2 = acc.1.get q.1 q.2 := by
      intro q hq
      rw [plot, Framebuffer.get_toggle, if_neg]
      rintro ⟨h1, h2⟩
      exact hp (by rwa [show p = q from (Prod.ext h1 h2).symm])
    constructor
    · rintro (h | ⟨q, h1, h2⟩)
      · simp only [plot, Bool.or_eq_true, decide_eq_true_eq] at h
        exact h.imp_right fun h => ⟨p, by simp, h⟩
      · exact .inr ⟨q, by simp [h1], by rwa [hq q h1] at h2⟩
    · rintro (h | ⟨q, h1, h2⟩)
      · exact .inl (by simp [plot, h])
      · rcases List.mem_cons.1 h1 with rfl | h1
        · exact .inl (by simp [plot, h2])
        · exact .inr ⟨q, h1, by rwa [hq q h1]⟩

/-- The display after a blit, pixel by pixel. -/
theorem get_draw (edge : SpriteEdge) (fb : Framebuffer) (rows : List Byte) (x0 y0 : Nat) (h : rows.length ≤ 32)
    (px : Fin 64) (py : Fin 32) :
    (Covered edge rows x0 y0 px py → (draw edge fb rows x0 y0).1.get px py = (fb.get px py).flip) ∧
    (¬ Covered edge rows x0 y0 px py → (draw edge fb rows x0 y0).1.get px py = fb.get px py) := by
  rw [draw_eq, get_foldl_plot _ (nodup_rowHits edge x0 rows y0 h), ← mem_rowHits_iff]
  exact ⟨fun hc => if_pos hc, fun hc => if_neg hc⟩

/-- A blit collides exactly when a covered pixel was `On` (R132). -/
theorem collided_draw (edge : SpriteEdge) (fb : Framebuffer) (rows : List Byte) (x0 y0 : Nat) (h : rows.length ≤ 32) :
    (draw edge fb rows x0 y0).2 = true ↔ ∃ px py, Covered edge rows x0 y0 px py ∧ fb.get px py = .on := by
  rw [draw_eq, collided_foldl_plot _ (nodup_rowHits edge x0 rows y0 h)]
  simp only [← mem_rowHits_iff]
  simp

end Sys2Proof.Machine
end

