-- ==== Sys2Proof/Laws/Keypad.lean ====
section
/-! SUPPORT. The keypad: the edge clear slot by slot, and what `find_released_key` and the key test answer. -/

namespace Sys2Proof.Machine

variable (s : State)

/-- The edge clear of one slot (R137). -/
theorem key_clearReleasedKeys (k : Fin 16) : (clearReleasedKeys s).key k = (s.key k).clearEdge := by
  simp [State.key, clearReleasedKeys]

theorem clearEdge_eq (k : KeyState) : k.clearEdge = if k = .released then .idle else k := by
  cases k <;> rfl

/-- After the edge clear no slot is `Released`. -/
theorem clearReleasedKeys_no_edge (k : Fin 16) : (clearReleasedKeys s).key k ≠ .released := by
  rw [key_clearReleasedKeys, clearEdge_eq]
  split_ifs with h
  · decide
  · exact h

theorem findReleased_eq_some (k : Fin 16) (hk : s.key k = .released)
    (hj : ∀ j : Fin 16, j < k → s.key j ≠ .released) : findReleased s = some k.val := by
  rw [findReleased, List.findIdx?_eq_some_iff_getElem]
  refine ⟨by simp, by simpa [State.key] using hk, fun j hjk => ?_⟩
  have := hj ⟨j, by omega⟩ hjk
  simpa [State.key] using this

theorem findReleased_eq_none (h : ∀ k, s.key k ≠ .released) : findReleased s = none := by
  rw [findReleased, List.findIdx?_eq_none_iff]
  intro k hk
  obtain ⟨j, hj, rfl⟩ := List.getElem_of_mem hk
  simpa [State.key] using h ⟨j, by simpa using hj⟩

/-- `find_released_key` answers the lowest released slot, or none when no slot is released (R139). -/
theorem findReleased_cases :
    (∃ k : Fin 16, s.key k = .released ∧ (∀ j : Fin 16, j < k → s.key j ≠ .released) ∧
      findReleased s = some k.val) ∨
    ((∀ k, s.key k ≠ .released) ∧ findReleased s = none) := by
  by_cases h : ∃ k, s.key k = .released
  · have hne : (Finset.univ.filter fun k : Fin 16 => s.key k = .released).Nonempty :=
      h.imp fun k hk => by simpa using hk
    obtain ⟨k, hk, hmin⟩ := Finset.exists_min_image _ id hne
    refine .inl ⟨k, by simpa using hk, ?_, ?_⟩
    · intro j hj hr
      exact absurd (hmin j (by simpa using hr)) (not_le.2 hj)
    · refine findReleased_eq_some s k (by simpa using hk) fun j hj hr => ?_
      exact absurd (hmin j (by simpa using hr)) (not_le.2 hj)
  · have h' : ∀ k, s.key k ≠ .released := fun k hk => h ⟨k, hk⟩
    exact .inr ⟨h', findReleased_eq_none s h'⟩

/-- The key test in terms of the slots (R141). -/
theorem keyPressed_iff (b : Byte) :
    keyPressed s b = true ↔ ∃ k : Fin 16, k.val = b.toNat ∧ s.key k = .pressed := by
  unfold keyPressed
  split_ifs with h
  · rw [decide_eq_true_eq]
    constructor
    · exact fun hp => ⟨⟨b.toNat, h⟩, rfl, hp⟩
    · rintro ⟨k, hk, hp⟩
      have : k = ⟨b.toNat, h⟩ := Fin.ext hk
      subst this
      exact hp
  · simp only [false_iff]
    rintro ⟨k, hk, _⟩
    omega

end Sys2Proof.Machine
end

