-- ==== Sys2Proof/Laws/Timers.lean ====
section
/-! SUPPORT. The timer decay: its loop in closed form, its range, and its iteration. -/

namespace Sys2Proof.Machine

@[simp] theorem tick_eq : tick = 1 / 60 := by
  norm_num [tick]

/-- The floor of a rational that lies in `[n, n+1)`. -/
theorem floor_toNat_eq {r : Rat} {n : Nat} (h1 : (n : Rat) ≤ r) (h2 : r < n + 1) : r.floor.toNat = n := by
  have h : r.floor = (n : Int) := (Int.floor_eq_iff (R := Rat)).2 ⟨by exact_mod_cast h1, by exact_mod_cast h2⟩
  simp [h]

/-- Every non-negative rational lies between its floor and the next number. -/
theorem floor_toNat_bounds {r : Rat} (h : 0 ≤ r) :
    (r.floor.toNat : Rat) ≤ r ∧ r < r.floor.toNat + 1 := by
  have h0 : 0 ≤ r.floor := Int.floor_nonneg.2 h
  have hc : ((r.floor.toNat : Int) : Rat) = (r.floor : Rat) := by rw [Int.toNat_of_nonneg h0]
  have h1 : ((r.floor : Int) : Rat) ≤ r := Int.floor_le r
  have h2 : r < (r.floor : Rat) + 1 := Int.lt_floor_add_one r
  push_cast at hc
  exact ⟨by linarith, by linarith⟩

/-- The loop in closed form: with `q` whole sixtieths accumulated, the timer loses `q`. -/
theorem decayLoop_eq (t : Nat) (acc : Rat) (q : Nat) (h1 : (q : Rat) ≤ acc * 60) (h2 : acc * 60 < q + 1) :
    decayLoop t acc = (t - q, if t ≤ q then 0 else acc - (q : Rat) / 60) := by
  induction t generalizing acc q with
  | zero => simp [decayLoop]
  | succ t ih =>
    rw [decayLoop, tick_eq]
    by_cases h : 1 / 60 ≤ acc
    · have hq : 1 ≤ q := by
        by_contra hq
        have : q = 0 := by omega
        subst this
        push_cast at h2
        linarith
      obtain ⟨p, rfl⟩ := Nat.exists_eq_add_of_le' hq
      push_cast at h1 h2
      rw [if_pos h, ih (acc - 1 / 60) p (by linarith) (by linarith)]
      by_cases hp : t ≤ p
      · rw [if_pos hp, if_pos (by omega), show t - p = t + 1 - (p + 1) by omega]
      · rw [if_neg hp, if_neg (by omega), show t - p = t + 1 - (p + 1) by omega]
        push_cast
        ring_nf
    · have hq : q = 0 := by
        by_contra hq
        have : (1 : Rat) ≤ q := by exact_mod_cast Nat.one_le_iff_ne_zero.2 hq
        linarith
      subst hq
      rw [if_neg h]
      simp

theorem decayOne_zero (acc dt : Rat) : decayOne 0 acc dt = (0, 0) := rfl

/-- `DecayOne` in closed form for a running timer. -/
theorem decayOne_eq (t : Byte) (acc dt : Rat) (q : Nat) (ht : t ≠ 0) (h1 : (q : Rat) ≤ (acc + dt) * 60)
    (h2 : (acc + dt) * 60 < q + 1) :
    (decayOne t acc dt).1.toNat = t.toNat - q ∧
    (decayOne t acc dt).2 = if t.toNat ≤ q then 0 else acc + dt - (q : Rat) / 60 := by
  simp only [decayOne, if_neg ht, decayLoop_eq t.toNat (acc + dt) q h1 h2]
  simp only [BitVec.toNat_ofNat, and_true]
  omega

/-- A decay leaves a timer legal (R146). -/
theorem decayOne_legal (t : Byte) (acc dt : Rat) (hacc : 0 ≤ acc) (hdt : 0 ≤ dt) :
    TimerLegal (decayOne t acc dt).1 (decayOne t acc dt).2 := by
  by_cases ht : t = 0
  · subst ht
    exact ⟨by simp [decayOne], by simp [decayOne], fun _ => by simp [decayOne]⟩
  · obtain ⟨h1, h2⟩ := floor_toNat_bounds (r := (acc + dt) * 60) (by positivity)
    obtain ⟨e1, e2⟩ := decayOne_eq t acc dt _ ht h1 h2
    refine ⟨?_, ?_, ?_⟩
    · rw [e2]
      split_ifs
      · exact le_rfl
      · linarith
    · rw [e2, tick_eq]
      split_ifs
      · norm_num
      · linarith
    · intro h0
      have : (decayOne t acc dt).1.toNat = 0 := by simp [h0]
      rw [e2, if_pos (by omega)]

/-- The loop of `DecayOne`, one round at a time (R146). -/
theorem decayOne_below (t : Byte) (acc dt : Rat) (ht : t ≠ 0) (h : acc + dt < 1 / 60) :
    decayOne t acc dt = (t, acc + dt) := by
  have hpos : t.toNat ≠ 0 := fun e => ht (BitVec.eq_of_toNat_eq (by simpa using e))
  obtain ⟨n, hn⟩ := Nat.exists_eq_succ_of_ne_zero hpos
  simp only [decayOne, if_neg ht, hn, decayLoop, tick_eq, if_neg (not_le.2 h)]
  rw [← Nat.succ_eq_add_one, ← hn]
  simp

theorem decayOne_cross (t : Byte) (acc dt : Rat) (ht : t ≠ 0) (h : 1 / 60 ≤ acc + dt) :
    decayOne t acc dt = decayOne (t - 1) (acc - 1 / 60) dt := by
  have hpos : t.toNat ≠ 0 := fun e => ht (BitVec.eq_of_toNat_eq (by simpa using e))
  obtain ⟨n, hn⟩ := Nat.exists_eq_succ_of_ne_zero hpos
  have hpred : (t - 1).toNat = n := by
    rw [BitVec.toNat_sub, show (1 : Byte).toNat = 1 from rfl]
    omega
  simp only [decayOne, if_neg ht, hn, decayLoop, tick_eq, if_pos h, hpred]
  by_cases h1 : t - 1 = 0
  · rw [if_pos h1]
    have : n = 0 := by
      rw [← hpred, h1]
      rfl
    subst this
    rfl
  · rw [if_neg h1, show acc + dt - 1 / 60 = acc - 1 / 60 + dt by ring]

theorem decayedFrom_zero (t : Byte) (ips : Nat) : DecayedFrom t.toNat ips 0 t 0 :=
  ⟨by simp, by simp⟩

theorem decayedFrom_succ (N ips m : Nat) (t : Byte) (acc : Rat) (hips : 0 < ips) (h : DecayedFrom N ips m t acc) :
    DecayedFrom N ips (m + 1) (decayOne t acc (1 / (ips : Rat))).1 (decayOne t acc (1 / (ips : Rat))).2 := by
  have hmono : 60 * m / ips ≤ 60 * (m + 1) / ips := Nat.div_le_div_right (by omega)
  by_cases ht : t = 0
  · have hv := h.value
    subst ht
    rw [show (0 : Byte).toNat = 0 from rfl] at hv
    refine ⟨?_, fun hlt => by omega⟩
    rw [decayOne_zero, show (0 : Byte).toNat = 0 from rfl]
    omega
  · have hpos : t.toNat ≠ 0 := fun e => ht (BitVec.eq_of_toNat_eq (by simpa using e))
    have hv := h.value
    have hr := h.rest (by omega)
    have hi : (0 : Rat) < ips := by exact_mod_cast hips
    set q := 60 * m / ips with hq
    set q' := 60 * (m + 1) / ips with hq'
    have hsum : (acc + 1 / (ips : Rat)) * 60 = (60 * (m + 1) : Nat) / (ips : Rat) - q := by
      rw [hr]
      push_cast
      field_simp
      ring
    have hlo : ((q' : Nat) : Rat) ≤ (60 * (m + 1) : Nat) / (ips : Rat) := by
      rw [le_div_iff₀ hi]
      exact_mod_cast Nat.div_mul_le_self _ _
    have hhi : ((60 * (m + 1) : Nat) : Rat) / (ips : Rat) < (q' : Rat) + 1 := by
      rw [div_lt_iff₀ hi]
      exact_mod_cast (by rw [Nat.mul_comm (q' + 1)]; exact Nat.lt_mul_div_succ _ hips : 60 * (m + 1) < (q' + 1) * ips)
    have hsub : ((q' - q : Nat) : Rat) = (q' : Rat) - q := by
      rw [Nat.cast_sub hmono]
    obtain ⟨e1, e2⟩ := decayOne_eq t acc (1 / (ips : Rat)) (q' - q) ht (by rw [hsum, hsub]; linarith)
      (by rw [hsum, hsub]; linarith)
    refine ⟨by omega, fun hlt => ?_⟩
    rw [e2, if_neg (by omega), hsub, hr]
    push_cast
    field_simp
    ring

end Sys2Proof.Machine
end

