-- ==== Sys2Proof/Laws/Step.lean ====
section
/-! SUPPORT. What the storing shape, an instruction and a cycle can do, each said once: later proofs cite these and
unfold none of them. -/

-- One theorem after another: many at once ask for more threads than a memory limit of the check allows.
set_option Elab.async false

namespace Sys2Proof.Machine

/-- The decoder's two verdicts (R59). -/
theorem decode_cases (w : Word) : (∃ i, decode w = .ok i) ∨ decode w = .error (.invalidOpcode w) := by
  unfold decode decode0 decode8 decodeE decodeF
  dsimp only
  split <;> first | exact .inl ⟨_, rfl⟩ | skip
  all_goals first
    | (split_ifs <;> first | exact .inl ⟨_, rfl⟩ | exact .inr rfl)
    | (split <;> first | exact .inl ⟨_, rfl⟩ | exact .inr rfl)

variable {s t : State}

/-- What `FX33` and `FX55` can do: fault with nothing written, or store every byte and go on (R118, R119). -/
theorem storeAtI_cases (bytes : List Byte) (s : State) :
    (s.i.toNat + bytes.length > 4096 ∧
      storeAtI bytes s = .fault (.memoryFault s.i.toNat bytes.length s.pc)) ∨
    (s.i.toNat + bytes.length ≤ 4096 ∧
      storeAtI bytes s = .next ((s.setBytes s.i.toNat bytes).finish .next false)) := by
  unfold storeAtI
  rcases memWrite_cases s s.i.toNat bytes with ⟨h, e⟩ | ⟨h, e⟩
  · exact .inl ⟨h, by rw [e]; rfl⟩
  · exact .inr ⟨h, by rw [e]; rfl⟩

/-- What `FX65` can do (R120). -/
theorem execLdVxMem_cases (x : RegIdx) (s : State) :
    (s.i.toNat + (x.val + 1) > 4096 ∧
      execLdVxMem x s = .fault (.memoryFault s.i.toNat (x.val + 1) s.pc)) ∨
    (s.i.toNat + (x.val + 1) ≤ 4096 ∧
      execLdVxMem x s =
        .next ((s.loadRegs ((List.range (x.val + 1)).map fun j => s.byteAt (s.i.toNat + j))).finish .next false)) := by
  unfold execLdVxMem bulkCount
  rcases memRead_cases s s.i.toNat (x.val + 1) with ⟨h, e⟩ | ⟨h, e⟩
  · exact .inl ⟨h, by rw [e]; rfl⟩
  · exact .inr ⟨h, by rw [e]; rfl⟩

/-- What `DXYN` can do (R128). -/
theorem execDrwVxVyNibble_cases (x y : RegIdx) (n : Nibble) (s : State) :
    (s.i.toNat + n.val > 4096 ∧
      execDrwVxVyNibble x y n s = .fault (.memoryFault s.i.toNat n.val s.pc)) ∨
    (s.i.toNat + n.val ≤ 4096 ∧
      execDrwVxVyNibble x y n s =
        .next ((drawSprite x y ((List.range n.val).map fun j => s.byteAt (s.i.toNat + j)) s).finish .next true)) := by
  unfold execDrwVxVyNibble
  rcases memRead_cases s s.i.toNat n.val with ⟨h, e⟩ | ⟨h, e⟩
  · exact .inl ⟨h, by rw [e]; rfl⟩
  · exact .inr ⟨h, by rw [e]; rfl⟩

/-- What `2NNN` can do (R86). -/
theorem execCallAddr_cases (nnn : Addr) (s : State) :
    (16 ≤ s.sp.toNat ∧ execCallAddr nnn s = .fault (.stackOverflow s.pc)) ∨
    (s.sp.toNat < 16 ∧ execCallAddr nnn s = .next ((s.push s.pc).finish (.jump (zext16 nnn)) false)) := by
  unfold execCallAddr
  by_cases h : 16 ≤ s.sp.toNat
  · exact .inl ⟨h, by simp [h, raise]⟩
  · exact .inr ⟨by omega, by simp [h, complete]⟩

/-- What `00EE` can do (R87). -/
theorem execRet_cases (s : State) :
    (s.sp = 0 ∧ execRet s = .fault (.stackUnderflow s.pc)) ∨
    (s.sp ≠ 0 ∧ execRet s = .next (s.pop.finish (.jump (s.stackTop + 2)) false)) := by
  unfold execRet
  by_cases h : s.sp = 0
  · exact .inl ⟨h, by simp [h, raise]⟩
  · exact .inr ⟨h, by rw [if_neg h]; rfl⟩

/-- What `FX0A` can do (R143). -/
theorem execLdVxK_cases (x : RegIdx) (s : State) :
    (∃ k : Fin 16, s.key k = .released ∧ (∀ j : Fin 16, j < k → s.key j ≠ .released) ∧
      execLdVxK x s = .next ((s.setReg x (BitVec.ofNat 8 k.val)).finish .next false)) ∨
    ((∀ k, s.key k ≠ .released) ∧ execLdVxK x s = .next (s.finish .again false)) := by
  unfold execLdVxK
  rcases findReleased_cases s with ⟨k, hk, hj, e⟩ | ⟨h, e⟩
  · exact .inl ⟨k, hk, hj, by rw [e]; rfl⟩
  · exact .inr ⟨h, by rw [e]; rfl⟩

/-- The state that an instruction leaves and the guard under which it completes, said once for each instruction; what
`exec` answers a next state with is exactly this. -/
def ExecNext (i : Instr) (s t : State) : Prop :=
  match i with
  | .cls => t = (s.setFb Framebuffer.blank).finish .next true
  | .ret => s.sp ≠ 0 ∧ t = s.pop.finish (.jump (s.stackTop + 2)) false
  | .jpAddr nnn => t = s.finish (.jump (zext16 nnn)) false
  | .callAddr nnn => s.sp.toNat < 16 ∧ t = (s.push s.pc).finish (.jump (zext16 nnn)) false
  | .seVxByte x nn => t = s.finish (if s.reg x = nn then .skip else .next) false
  | .sneVxByte x nn => t = s.finish (if s.reg x = nn then .next else .skip) false
  | .seVxVy x y => t = s.finish (if s.reg x = s.reg y then .skip else .next) false
  | .sneVxVy x y => t = s.finish (if s.reg x = s.reg y then .next else .skip) false
  | .ldVxByte x nn => t = (s.setReg x nn).finish .next false
  | .addVxByte x nn => t = (s.setReg x (s.reg x + nn)).finish .next false
  | .ldVxVy x y => t = (s.setReg x (s.reg y)).finish .next false
  | .orVxVy x y => t = (s.setReg x (s.reg x ||| s.reg y)).finish .next false
  | .andVxVy x y => t = (s.setReg x (s.reg x &&& s.reg y)).finish .next false
  | .xorVxVy x y => t = (s.setReg x (s.reg x ^^^ s.reg y)).finish .next false
  | .addVxVy x y =>
    t = ((s.setReg x (s.reg x + s.reg y)).setFlag (carry (s.reg x) (s.reg y))).finish .next false
  | .subVxVy x y =>
    t = ((s.setReg x (s.reg x - s.reg y)).setFlag (notBorrow (s.reg x) (s.reg y))).finish .next false
  | .subnVxVy x y =>
    t = ((s.setReg x (s.reg y - s.reg x)).setFlag (notBorrow (s.reg y) (s.reg x))).finish .next false
  | .shrVxVy x y =>
    t = ((s.setReg x (shiftOperand s x y >>> 1)).setFlag (shiftedOutRight (shiftOperand s x y))).finish .next false
  | .shlVxVy x y =>
    t = ((s.setReg x (shiftOperand s x y <<< 1)).setFlag (shiftedOutLeft (shiftOperand s x y))).finish .next false
  | .ldIAddr nnn => t = (s.setI (zext16 nnn)).finish .next false
  | .jpV0Addr nnn => t = s.finish (.jump (indirectTarget s nnn)) false
  | .rndVxByte x nn => t = (s.afterDraw.setReg x (s.nextDraw &&& nn)).finish .next false
  | .drwVxVyNibble x y n =>
    s.i.toNat + n.val ≤ 4096 ∧
      t = (drawSprite x y ((List.range n.val).map fun j => s.byteAt (s.i.toNat + j)) s).finish .next true
  | .skpVx x => t = s.finish (if keyPressed s (s.reg x) then .skip else .next) false
  | .sknpVx x => t = s.finish (if keyPressed s (s.reg x) then .next else .skip) false
  | .ldVxDT x => t = (s.setReg x s.dt).finish .next false
  | .ldVxK x =>
    (∃ k : Fin 16, s.key k = .released ∧ (∀ j : Fin 16, j < k → s.key j ≠ .released) ∧
      t = (s.setReg x (BitVec.ofNat 8 k.val)).finish .next false) ∨
    ((∀ k, s.key k ≠ .released) ∧ t = s.finish .again false)
  | .ldDTVx x => t = (s.setDT (s.reg x)).finish .next false
  | .ldSTVx x => t = (s.setST (s.reg x)).finish .next false
  | .addIVx x => t = (s.setI (s.i + zext16 (s.reg x))).finish .next false
  | .ldFVx x => t = (s.setI (glyphAddress (s.reg x))).finish .next false
  | .ldBVx x =>
    s.i.toNat + 3 ≤ 4096 ∧ t = (s.setBytes s.i.toNat (bcdDigits (s.reg x))).finish .next false
  | .ldMemVx x =>
    s.i.toNat + (x.val + 1) ≤ 4096 ∧ t = (s.setBytes s.i.toNat (dumpBytes s x)).finish .next false
  | .ldVxMem x =>
    s.i.toNat + (x.val + 1) ≤ 4096 ∧
      t = (s.loadRegs ((List.range (x.val + 1)).map fun j => s.byteAt (s.i.toNat + j))).finish .next false

/-- Inversion of `exec`: what an instruction can do when it completes. -/
theorem exec_next {i : Instr} (h : exec i s = .next t) : ExecNext i s t := by
  cases i <;> simp only [exec] at h
  case callAddr nnn =>
    rcases execCallAddr_cases nnn s with ⟨_, e⟩ | ⟨hg, e⟩ <;> rw [e] at h <;> cases h
    exact ⟨hg, rfl⟩
  case ret =>
    rcases execRet_cases s with ⟨_, e⟩ | ⟨hg, e⟩ <;> rw [e] at h <;> cases h
    exact ⟨hg, rfl⟩
  case drwVxVyNibble x y n =>
    rcases execDrwVxVyNibble_cases x y n s with ⟨_, e⟩ | ⟨hg, e⟩ <;> rw [e] at h <;> cases h
    exact ⟨hg, rfl⟩
  case ldVxK x =>
    rcases execLdVxK_cases x s with ⟨k, hk, hj, e⟩ | ⟨hn, e⟩ <;> rw [e] at h <;> cases h
    · exact .inl ⟨k, hk, hj, rfl⟩
    · exact .inr ⟨hn, rfl⟩
  case ldBVx x =>
    rcases storeAtI_cases (bcdDigits (s.reg x)) s with ⟨_, e⟩ | ⟨hg, e⟩ <;> rw [execLdBVx, e] at h <;> cases h
    exact ⟨hg, rfl⟩
  case ldMemVx x =>
    rcases storeAtI_cases (dumpBytes s x) s with ⟨_, e⟩ | ⟨hg, e⟩ <;> rw [execLdMemVx, e] at h <;> cases h
    exact ⟨by rwa [length_dumpBytes] at hg, rfl⟩
  case ldVxMem x =>
    rcases execLdVxMem_cases x s with ⟨_, e⟩ | ⟨hg, e⟩ <;> rw [e] at h <;> cases h
    exact ⟨hg, rfl⟩
  case sneVxByte x nn =>
    cases h
    by_cases hx : s.reg x = nn <;> simp [ExecNext, hx]
  case sneVxVy x y =>
    cases h
    by_cases hx : s.reg x = s.reg y <;> simp [ExecNext, hx]
  case sknpVx x =>
    cases h
    by_cases hx : keyPressed s (s.reg x) = true <;> simp [ExecNext, hx]
  case seVxByte x nn =>
    cases h
    by_cases hx : s.reg x = nn <;> simp [ExecNext, hx]
  case seVxVy x y =>
    cases h
    by_cases hx : s.reg x = s.reg y <;> simp [ExecNext, hx]
  all_goals
    cases h
    rfl

/-- What a cycle can do: a fetch fault, an invalid opcode, or the instruction's own outcome, a next state giving its indication
to the result and going on to the decay and the edge clear (R70, R160). -/
theorem cycle_cases (s : State) :
    (s.pc.toNat + 2 > 4096 ∧ cycle s = .fault (.memoryFault s.pc.toNat 2 s.pc)) ∨
    (s.pc.toNat + 2 ≤ 4096 ∧ decode s.wordAtPc = .error (.invalidOpcode s.wordAtPc) ∧
      cycle s = .fault (.invalidOpcode s.wordAtPc s.pc)) ∨
    ∃ i, s.About i ∧
      ((∃ t, exec i s = .next t ∧ cycle s = .ok t.redraw (endCycle t)) ∨
        (∃ f, exec i s = .fault f ∧ cycle s = .fault f) ∨
        ∃ r, exec i s = .refused r ∧ cycle s = .refused r) := by
  unfold cycle
  rcases fetch_cases s with ⟨h, e⟩ | ⟨h, e⟩
  · exact .inl ⟨h, by rw [e]⟩
  · rw [e]
    rcases decode_cases s.wordAtPc with ⟨i, hd⟩ | hd
    · refine .inr (.inr ⟨i, ⟨h, hd⟩, ?_⟩)
      simp only [hd]
      cases hx : exec i s with
      | next t => exact .inl ⟨t, rfl, rfl⟩
      | fault f => exact .inr (.inl ⟨f, rfl, rfl⟩)
      | refused r => exact .inr (.inr ⟨r, rfl, rfl⟩)
    · exact .inr (.inl ⟨h, hd, by simp only [hd]⟩)

/-- A cycle that answers `Ok(redraw)` ran the instruction that `PC` points at, and the indication is that instruction's. -/
theorem cycle_ok {r : Bool} (h : cycle s = .ok r t) :
    ∃ i u, s.About i ∧ exec i s = .next u ∧ r = u.redraw ∧ t = endCycle u := by
  rcases cycle_cases s with ⟨_, e⟩ | ⟨_, _, e⟩ | ⟨i, ha, ⟨u, hx, e⟩ | ⟨f, _, e⟩ | ⟨r, _, e⟩⟩ <;> rw [e] at h <;> cases h
  exact ⟨i, u, ha, hx, rfl, rfl⟩

/-- The cycle of the instruction that `PC` points at, where that completes. -/
theorem cycle_of_about {i : Instr} (ha : s.About i) (hx : exec i s = .next t) : cycle s = .ok t.redraw (endCycle t) := by
  unfold cycle
  rcases fetch_cases s with ⟨h, _⟩ | ⟨_, e⟩
  · exact absurd ha.1 (not_le.2 h)
  · simp only [e, ha.2, hx]

theorem step_of_about {i : Instr} (ha : s.About i) (hx : exec i s = .next t) : step s = .next (endCycle t) := by
  rw [step, cycle_of_about ha hx]
  rfl

/-- `step` completes exactly when the cycle does, with the same state. -/
theorem step_next_iff : step s = .next t ↔ ∃ r, cycle s = .ok r t := by
  unfold step
  cases cycle s <;> simp [CycleResult.outcome, raise]

/-- `step` faults exactly when the cycle does, with the same fault. -/
theorem step_fault_iff {f : Fault} : step s = .fault f ↔ cycle s = .fault f := by
  unfold step
  cases cycle s <;> simp [CycleResult.outcome, raise]

/-- What `step` can do (R70, R160). -/
theorem step_cases (s : State) :
    (s.pc.toNat + 2 > 4096 ∧ step s = .fault (.memoryFault s.pc.toNat 2 s.pc)) ∨
    (s.pc.toNat + 2 ≤ 4096 ∧ decode s.wordAtPc = .error (.invalidOpcode s.wordAtPc) ∧
      step s = .fault (.invalidOpcode s.wordAtPc s.pc)) ∨
    ∃ i, s.About i ∧
      ((∃ t, exec i s = .next t ∧ step s = .next (endCycle t)) ∨
        (∃ f, exec i s = .fault f ∧ step s = .fault f) ∨
        ∃ r, exec i s = .refused r ∧ step s = .refused r) := by
  unfold step
  rcases cycle_cases s with ⟨h, e⟩ | ⟨h, hd, e⟩ | ⟨i, ha, ⟨t, hx, e⟩ | ⟨f, hx, e⟩ | ⟨r, hx, e⟩⟩ <;> rw [e]
  · exact .inl ⟨h, rfl⟩
  · exact .inr (.inl ⟨h, hd, rfl⟩)
  · exact .inr (.inr ⟨i, ha, .inl ⟨t, hx, rfl⟩⟩)
  · exact .inr (.inr ⟨i, ha, .inr (.inl ⟨f, hx, rfl⟩)⟩)
  · exact .inr (.inr ⟨i, ha, .inr (.inr ⟨r, hx, rfl⟩)⟩)

/-- A cycle that completes ran the instruction that `PC` points at (R70). -/
theorem step_next (h : step s = .next t) : ∃ i u, s.About i ∧ exec i s = .next u ∧ t = endCycle u := by
  obtain ⟨r, hc⟩ := step_next_iff.1 h
  obtain ⟨i, u, ha, hx, _, e⟩ := cycle_ok hc
  exact ⟨i, u, ha, hx, e⟩

/-- After a cycle that completes no indication is stored (R81). -/
theorem step_quiet (h : step s = .next t) : t.redraw = false := by
  obtain ⟨i, u, _, _, rfl⟩ := step_next h
  rfl

/-- No instruction touches the keypad slots, the clock or the configuration. -/
theorem exec_keeps_host_state {i : Instr} (h : exec i s = .next t) :
    t.keys = s.keys ∧ t.clockAcc = s.clockAcc ∧ t.cfg = s.cfg := by
  have e := exec_next h
  cases i
  case callAddr => obtain ⟨_, rfl⟩ := e; exact ⟨rfl, rfl, rfl⟩
  case ret => obtain ⟨_, rfl⟩ := e; exact ⟨rfl, rfl, rfl⟩
  case drwVxVyNibble => obtain ⟨_, rfl⟩ := e; exact ⟨rfl, rfl, rfl⟩
  case ldVxK => rcases e with ⟨_, _, _, rfl⟩ | ⟨_, rfl⟩ <;> exact ⟨rfl, rfl, rfl⟩
  case ldBVx => obtain ⟨_, rfl⟩ := e; exact ⟨rfl, rfl, rfl⟩
  case ldMemVx => obtain ⟨_, rfl⟩ := e; exact ⟨rfl, rfl, rfl⟩
  case ldVxMem => obtain ⟨_, rfl⟩ := e; exact ⟨rfl, rfl, rfl⟩
  all_goals
    obtain rfl := e
    exact ⟨rfl, rfl, rfl⟩

/-- A cycle keeps the clock and the configuration. -/
theorem step_keeps_clock_and_cfg (h : step s = .next t) : t.clockAcc = s.clockAcc ∧ t.cfg = s.cfg := by
  obtain ⟨i, u, _, hx, rfl⟩ := step_next h
  exact (exec_keeps_host_state hx).2

/-- A run of no cycle. -/
theorem run_zero (s : State) : Sys2Proof.core.run 0 s = .next s := rfl

/-- A run of any machine whose first step completes goes on from the state that step leaves. -/
theorem core_run_succ (M : Host.Core) (n : Nat) (s t : M.State) (h : M.step s = .next t) :
    M.run (n + 1) s = M.run n t := by
  simp only [Host.Core.run, h]

/-- The first step of a run that completes completed. -/
theorem core_run_succ_next (M : Host.Core) (n : Nat) (s u : M.State) (h : M.run (n + 1) s = .next u) :
    ∃ t, M.step s = .next t ∧ M.run n t = .next u := by
  rw [Host.Core.run.eq_2] at h
  split at h
  · exact ⟨_, by assumption, h⟩
  · cases h
  · cases h

theorem run_succ (n : Nat) (h : step s = .next t) : Sys2Proof.core.run (n + 1) s = Sys2Proof.core.run n t :=
  core_run_succ Sys2Proof.core n s t h

theorem run_succ_next {n : Nat} {u : State} (h : Sys2Proof.core.run (n + 1) s = .next u) :
    ∃ t, step s = .next t ∧ Sys2Proof.core.run n t = .next u := core_run_succ_next Sys2Proof.core n s u h

end Sys2Proof.Machine
end

