-- ==== Sys2Proof/Laws/HostPort.lean ====
section
/-! SUPPORT. What each host port can do, said once. -/

namespace Sys2Proof.Machine

variable (s : State)

/-- What the key port can do (R136). -/
theorem setKey_cases (k : Nat) (post : KeyPost) :
    (16 ≤ k ∧ setKey k post s = .error .keyOutOfRange) ∨
    ∃ j : Fin 16, j.val = k ∧ setKey k post s = .ok { s with keys := s.keys.set j post.slot } := by
  unfold setKey
  by_cases h : k < 16
  · exact .inr ⟨⟨k, h⟩, rfl, by rw [dif_pos h]⟩
  · exact .inl ⟨by omega, by rw [dif_neg h]⟩

/-- What `set_rate` can do (R80). -/
theorem setRate_cases (r : Nat) :
    (r = 0 ∧ setRate r s = .error .zeroRate) ∨
    (r ≠ 0 ∧ setRate r s = .ok { s with cfg := { s.cfg with ips := r } }) := by
  unfold setRate
  by_cases h : r = 0
  · exact .inl ⟨h, by rw [if_pos h]⟩
  · exact .inr ⟨h, by rw [if_neg h]⟩

/-- What a program load can do (R174). -/
theorem load_cases (image : List Byte) :
    (image.length > 3584 ∧ load image s = .error (.memoryFault 0x200 image.length s.pc)) ∨
    (image.length ≤ 3584 ∧ load image s = .ok (s.setBytes 0x200 image)) := by
  rcases memWrite_cases s 0x200 image with ⟨h, e⟩ | ⟨h, e⟩
  · exact .inl ⟨by omega, e⟩
  · exact .inr ⟨by omega, e⟩

/-- One round of `advance`: a cycle that is due and completes (R78). -/
theorem advanceLoop_next {t : State} {q : Bool} (fuel n : Nat) (r : Bool) (hp : microsPerInstruction s ≤ s.clockAcc)
    (h : cycle s = .ok q t) :
    advanceLoop (fuel + 1) n r s = advanceLoop fuel (n + 1) (r || q) (t.takePeriod (microsPerInstruction s)) := by
  rw [advanceLoop, if_pos hp, h]

/-- One round of `advance`: a cycle that is due and faults (R79). -/
theorem advanceLoop_fault {f : Fault} (fuel n : Nat) (r : Bool) (hp : microsPerInstruction s ≤ s.clockAcc)
    (h : cycle s = .fault f) : advanceLoop (fuel + 1) n r s = .fault f n r s := by
  rw [advanceLoop, if_pos hp, h]

/-- One round of `advance`: no cycle is due (R78). -/
theorem advanceLoop_stop (fuel n : Nat) (r : Bool) (hp : ¬ microsPerInstruction s ≤ s.clockAcc) :
    advanceLoop fuel n r s = .ok n r s := by
  cases fuel with
  | zero => rfl
  | succ fuel => rw [advanceLoop, if_neg hp]

end Sys2Proof.Machine
end

