-- ==== Sys2Proof/Laws/PerInstr.lean ====
section
/-! SUPPORT. Facts about every instruction as syntax, one lemma per constructor. -/

-- One theorem after another: many at once ask for more threads than a memory limit of the check allows.
set_option Elab.async false

namespace Sys2Proof.Laws

/-- Family `RoundTrip`: decoding an instruction's opcode gives it back. -/
def RoundTrip.Statement (i : Instr) : Prop := decode (encode i) = .ok i

/-- Family `TableRow`: an instruction's opcode lies in its row of the opcode table. -/
def TableRow.Statement (i : Instr) : Prop := i.row.covers (encode i) = true

theorem RoundTrip.cls : RoundTrip.Statement .cls := rfl

theorem RoundTrip.ret : RoundTrip.Statement .ret := rfl

theorem RoundTrip.jpAddr (nnn : Addr) : RoundTrip.Statement (.jpAddr nnn) := by
  simp [RoundTrip.Statement, encode, decode]

theorem RoundTrip.callAddr (nnn : Addr) : RoundTrip.Statement (.callAddr nnn) := by
  simp [RoundTrip.Statement, encode, decode]

theorem RoundTrip.seVxByte (x : RegIdx) (nn : Byte) : RoundTrip.Statement (.seVxByte x nn) := by
  simp [RoundTrip.Statement, encode, decode]

theorem RoundTrip.sneVxByte (x : RegIdx) (nn : Byte) : RoundTrip.Statement (.sneVxByte x nn) := by
  simp [RoundTrip.Statement, encode, decode]

theorem RoundTrip.seVxVy (x y : RegIdx) : RoundTrip.Statement (.seVxVy x y) := by
  simp [RoundTrip.Statement, encode, decode]

theorem RoundTrip.ldVxByte (x : RegIdx) (nn : Byte) : RoundTrip.Statement (.ldVxByte x nn) := by
  simp [RoundTrip.Statement, encode, decode]

theorem RoundTrip.addVxByte (x : RegIdx) (nn : Byte) : RoundTrip.Statement (.addVxByte x nn) := by
  simp [RoundTrip.Statement, encode, decode]

theorem RoundTrip.ldVxVy (x y : RegIdx) : RoundTrip.Statement (.ldVxVy x y) := by
  simp [RoundTrip.Statement, encode, decode, decode8]

theorem RoundTrip.orVxVy (x y : RegIdx) : RoundTrip.Statement (.orVxVy x y) := by
  simp [RoundTrip.Statement, encode, decode, decode8]

theorem RoundTrip.andVxVy (x y : RegIdx) : RoundTrip.Statement (.andVxVy x y) := by
  simp [RoundTrip.Statement, encode, decode, decode8]

theorem RoundTrip.xorVxVy (x y : RegIdx) : RoundTrip.Statement (.xorVxVy x y) := by
  simp [RoundTrip.Statement, encode, decode, decode8]

theorem RoundTrip.addVxVy (x y : RegIdx) : RoundTrip.Statement (.addVxVy x y) := by
  simp [RoundTrip.Statement, encode, decode, decode8]

theorem RoundTrip.subVxVy (x y : RegIdx) : RoundTrip.Statement (.subVxVy x y) := by
  simp [RoundTrip.Statement, encode, decode, decode8]

theorem RoundTrip.shrVxVy (x y : RegIdx) : RoundTrip.Statement (.shrVxVy x y) := by
  simp [RoundTrip.Statement, encode, decode, decode8]

theorem RoundTrip.subnVxVy (x y : RegIdx) : RoundTrip.Statement (.subnVxVy x y) := by
  simp [RoundTrip.Statement, encode, decode, decode8]

theorem RoundTrip.shlVxVy (x y : RegIdx) : RoundTrip.Statement (.shlVxVy x y) := by
  simp [RoundTrip.Statement, encode, decode, decode8]

theorem RoundTrip.sneVxVy (x y : RegIdx) : RoundTrip.Statement (.sneVxVy x y) := by
  simp [RoundTrip.Statement, encode, decode]

theorem RoundTrip.ldIAddr (nnn : Addr) : RoundTrip.Statement (.ldIAddr nnn) := by
  simp [RoundTrip.Statement, encode, decode]

theorem RoundTrip.jpV0Addr (nnn : Addr) : RoundTrip.Statement (.jpV0Addr nnn) := by
  simp [RoundTrip.Statement, encode, decode]

theorem RoundTrip.rndVxByte (x : RegIdx) (nn : Byte) : RoundTrip.Statement (.rndVxByte x nn) := by
  simp [RoundTrip.Statement, encode, decode]

theorem RoundTrip.drwVxVyNibble (x y : RegIdx) (n : Nibble) : RoundTrip.Statement (.drwVxVyNibble x y n) := by
  simp [RoundTrip.Statement, encode, decode]

theorem RoundTrip.skpVx (x : RegIdx) : RoundTrip.Statement (.skpVx x) := by
  simp [RoundTrip.Statement, encode, decode, decodeE]

theorem RoundTrip.sknpVx (x : RegIdx) : RoundTrip.Statement (.sknpVx x) := by
  simp [RoundTrip.Statement, encode, decode, decodeE]

theorem RoundTrip.ldVxDT (x : RegIdx) : RoundTrip.Statement (.ldVxDT x) := by
  simp [RoundTrip.Statement, encode, decode, decodeF]

theorem RoundTrip.ldVxK (x : RegIdx) : RoundTrip.Statement (.ldVxK x) := by
  simp [RoundTrip.Statement, encode, decode, decodeF]

theorem RoundTrip.ldDTVx (x : RegIdx) : RoundTrip.Statement (.ldDTVx x) := by
  simp [RoundTrip.Statement, encode, decode, decodeF]

theorem RoundTrip.ldSTVx (x : RegIdx) : RoundTrip.Statement (.ldSTVx x) := by
  simp [RoundTrip.Statement, encode, decode, decodeF]

theorem RoundTrip.addIVx (x : RegIdx) : RoundTrip.Statement (.addIVx x) := by
  simp [RoundTrip.Statement, encode, decode, decodeF]

theorem RoundTrip.ldFVx (x : RegIdx) : RoundTrip.Statement (.ldFVx x) := by
  simp [RoundTrip.Statement, encode, decode, decodeF]

theorem RoundTrip.ldBVx (x : RegIdx) : RoundTrip.Statement (.ldBVx x) := by
  simp [RoundTrip.Statement, encode, decode, decodeF]

theorem RoundTrip.ldMemVx (x : RegIdx) : RoundTrip.Statement (.ldMemVx x) := by
  simp [RoundTrip.Statement, encode, decode, decodeF]

theorem RoundTrip.ldVxMem (x : RegIdx) : RoundTrip.Statement (.ldVxMem x) := by
  simp [RoundTrip.Statement, encode, decode, decodeF]

theorem TableRow.cls : TableRow.Statement .cls := rfl

theorem TableRow.ret : TableRow.Statement .ret := rfl

theorem TableRow.jpAddr (nnn : Addr) : TableRow.Statement (.jpAddr nnn) := by
  simp only [TableRow.Statement, Instr.row, OpcodeRow.covers, encode, formatA_and]
  decide

theorem TableRow.callAddr (nnn : Addr) : TableRow.Statement (.callAddr nnn) := by
  simp only [TableRow.Statement, Instr.row, OpcodeRow.covers, encode, formatA_and]
  decide

theorem TableRow.seVxByte (x : RegIdx) (nn : Byte) : TableRow.Statement (.seVxByte x nn) := by
  simp only [TableRow.Statement, Instr.row, OpcodeRow.covers, encode, formatRI_and]
  decide

theorem TableRow.sneVxByte (x : RegIdx) (nn : Byte) : TableRow.Statement (.sneVxByte x nn) := by
  simp only [TableRow.Statement, Instr.row, OpcodeRow.covers, encode, formatRI_and]
  decide

theorem TableRow.seVxVy (x y : RegIdx) : TableRow.Statement (.seVxVy x y) := by
  simp only [TableRow.Statement, Instr.row, OpcodeRow.covers, encode, formatRR_and_sub]
  decide

theorem TableRow.ldVxByte (x : RegIdx) (nn : Byte) : TableRow.Statement (.ldVxByte x nn) := by
  simp only [TableRow.Statement, Instr.row, OpcodeRow.covers, encode, formatRI_and]
  decide

theorem TableRow.addVxByte (x : RegIdx) (nn : Byte) : TableRow.Statement (.addVxByte x nn) := by
  simp only [TableRow.Statement, Instr.row, OpcodeRow.covers, encode, formatRI_and]
  decide

theorem TableRow.ldVxVy (x y : RegIdx) : TableRow.Statement (.ldVxVy x y) := by
  simp only [TableRow.Statement, Instr.row, OpcodeRow.covers, encode, formatRR_and_sub]
  decide

theorem TableRow.orVxVy (x y : RegIdx) : TableRow.Statement (.orVxVy x y) := by
  simp only [TableRow.Statement, Instr.row, OpcodeRow.covers, encode, formatRR_and_sub]
  decide

theorem TableRow.andVxVy (x y : RegIdx) : TableRow.Statement (.andVxVy x y) := by
  simp only [TableRow.Statement, Instr.row, OpcodeRow.covers, encode, formatRR_and_sub]
  decide

theorem TableRow.xorVxVy (x y : RegIdx) : TableRow.Statement (.xorVxVy x y) := by
  simp only [TableRow.Statement, Instr.row, OpcodeRow.covers, encode, formatRR_and_sub]
  decide

theorem TableRow.addVxVy (x y : RegIdx) : TableRow.Statement (.addVxVy x y) := by
  simp only [TableRow.Statement, Instr.row, OpcodeRow.covers, encode, formatRR_and_sub]
  decide

theorem TableRow.subVxVy (x y : RegIdx) : TableRow.Statement (.subVxVy x y) := by
  simp only [TableRow.Statement, Instr.row, OpcodeRow.covers, encode, formatRR_and_sub]
  decide

theorem TableRow.shrVxVy (x y : RegIdx) : TableRow.Statement (.shrVxVy x y) := by
  simp only [TableRow.Statement, Instr.row, OpcodeRow.covers, encode, formatRR_and_sub]
  decide

theorem TableRow.subnVxVy (x y : RegIdx) : TableRow.Statement (.subnVxVy x y) := by
  simp only [TableRow.Statement, Instr.row, OpcodeRow.covers, encode, formatRR_and_sub]
  decide

theorem TableRow.shlVxVy (x y : RegIdx) : TableRow.Statement (.shlVxVy x y) := by
  simp only [TableRow.Statement, Instr.row, OpcodeRow.covers, encode, formatRR_and_sub]
  decide

theorem TableRow.sneVxVy (x y : RegIdx) : TableRow.Statement (.sneVxVy x y) := by
  simp only [TableRow.Statement, Instr.row, OpcodeRow.covers, encode, formatRR_and_sub]
  decide

theorem TableRow.ldIAddr (nnn : Addr) : TableRow.Statement (.ldIAddr nnn) := by
  simp only [TableRow.Statement, Instr.row, OpcodeRow.covers, encode, formatA_and]
  decide

theorem TableRow.jpV0Addr (nnn : Addr) : TableRow.Statement (.jpV0Addr nnn) := by
  simp only [TableRow.Statement, Instr.row, OpcodeRow.covers, encode, formatA_and]
  decide

theorem TableRow.rndVxByte (x : RegIdx) (nn : Byte) : TableRow.Statement (.rndVxByte x nn) := by
  simp only [TableRow.Statement, Instr.row, OpcodeRow.covers, encode, formatRI_and]
  decide

theorem TableRow.drwVxVyNibble (x y : RegIdx) (n : Nibble) : TableRow.Statement (.drwVxVyNibble x y n) := by
  simp only [TableRow.Statement, Instr.row, OpcodeRow.covers, encode, formatRR_and]
  decide

theorem TableRow.skpVx (x : RegIdx) : TableRow.Statement (.skpVx x) := by
  simp only [TableRow.Statement, Instr.row, OpcodeRow.covers, encode, formatRI_and_sub]
  decide

theorem TableRow.sknpVx (x : RegIdx) : TableRow.Statement (.sknpVx x) := by
  simp only [TableRow.Statement, Instr.row, OpcodeRow.covers, encode, formatRI_and_sub]
  decide

theorem TableRow.ldVxDT (x : RegIdx) : TableRow.Statement (.ldVxDT x) := by
  simp only [TableRow.Statement, Instr.row, OpcodeRow.covers, encode, formatRI_and_sub]
  decide

theorem TableRow.ldVxK (x : RegIdx) : TableRow.Statement (.ldVxK x) := by
  simp only [TableRow.Statement, Instr.row, OpcodeRow.covers, encode, formatRI_and_sub]
  decide

theorem TableRow.ldDTVx (x : RegIdx) : TableRow.Statement (.ldDTVx x) := by
  simp only [TableRow.Statement, Instr.row, OpcodeRow.covers, encode, formatRI_and_sub]
  decide

theorem TableRow.ldSTVx (x : RegIdx) : TableRow.Statement (.ldSTVx x) := by
  simp only [TableRow.Statement, Instr.row, OpcodeRow.covers, encode, formatRI_and_sub]
  decide

theorem TableRow.addIVx (x : RegIdx) : TableRow.Statement (.addIVx x) := by
  simp only [TableRow.Statement, Instr.row, OpcodeRow.covers, encode, formatRI_and_sub]
  decide

theorem TableRow.ldFVx (x : RegIdx) : TableRow.Statement (.ldFVx x) := by
  simp only [TableRow.Statement, Instr.row, OpcodeRow.covers, encode, formatRI_and_sub]
  decide

theorem TableRow.ldBVx (x : RegIdx) : TableRow.Statement (.ldBVx x) := by
  simp only [TableRow.Statement, Instr.row, OpcodeRow.covers, encode, formatRI_and_sub]
  decide

theorem TableRow.ldMemVx (x : RegIdx) : TableRow.Statement (.ldMemVx x) := by
  simp only [TableRow.Statement, Instr.row, OpcodeRow.covers, encode, formatRI_and_sub]
  decide

theorem TableRow.ldVxMem (x : RegIdx) : TableRow.Statement (.ldVxMem x) := by
  simp only [TableRow.Statement, Instr.row, OpcodeRow.covers, encode, formatRI_and_sub]
  decide

end Sys2Proof.Laws
end

