-- ==== Sys2Proof/Tests/Slice0.lean ====
section
/-! SUPPORT. Small tests of the model, their expected values from 95_test_vectors.md and from the examples in the rules;
and for each statement with hypotheses, states and operands that meet them, at the boundary values of its clauses. -/

-- One theorem after another: many at once ask for more threads than a memory limit of the check allows.
set_option Elab.async false

namespace Sys2Proof.Tests

open Sys2Proof.Machine

/-- The conventions of 95_test_vectors.md: `IPS = 600`, `VX`, `CLIP`; the reference glyphs (log entry 1). -/
def cfg : Configuration := ⟨600, .vx, .clip, Config.referenceGlyphs⟩

/-- The state after reset with the bytes at `0x200`. -/
def start (bytes : List Byte) : State := (State.construct cfg).setBytes 0x200 bytes

/-- The cycle completes and its state passes. -/
def after (s : State) (p : State → Bool) : Bool :=
  match step s with
  | .next t => p t
  | .fault _ => false
  | .refused _ => false

/-- The cycle returns `Ok(redraw)` with the indication given, stores none, and its state passes. -/
def returns (s : State) (redraw : Bool) (p : State → Bool) : Bool :=
  match cycle s with
  | .ok r t => r = redraw && !t.redraw && p t
  | .fault _ => false
  | .refused _ => false

/-- The cycle ends in the fault. -/
def stops (s : State) (f : Fault) : Bool :=
  match step s with
  | .next _ => false
  | .fault g => g = f
  | .refused _ => false

/-- The pixels that are `On` are those listed, as (x, y). -/
def litAt (s : State) (px : List (Fin 64 × Fin 32)) : Bool :=
  (List.finRange 64).all fun x => (List.finRange 32).all fun y => decide (s.fb.get x y = .on) == px.contains (x, y)

/-! ### Decoding: a word of every row, its bits written out from the encoding line of the instruction's rule -/

theorem test_decode_family_0 :
    decode 0b0000_0000_1110_0000 = .ok .cls ∧ decode 0b0000_0000_1110_1110 = .ok .ret ∧
    decode 0x0000 = .error (.invalidOpcode 0x0000) ∧ decode 0x0123 = .error (.invalidOpcode 0x0123) ∧
    decode 0x00E1 = .error (.invalidOpcode 0x00E1) := by decide

theorem test_decode_families_1_2_A_B :
    decode 0b0001_0010_0100_1000 = .ok (.jpAddr 0x248) ∧ decode 0b0010_0011_0000_0000 = .ok (.callAddr 0x300) ∧
    decode 0b1010_0010_1111_0000 = .ok (.ldIAddr 0x2F0) ∧ decode 0b1011_0011_0000_0000 = .ok (.jpV0Addr 0x300) := by
  decide

theorem test_decode_families_3_4_6_7_C :
    decode 0b0011_0011_0001_0000 = .ok (.seVxByte 3 0x10) ∧ decode 0b0100_0011_0001_0001 = .ok (.sneVxByte 3 0x11) ∧
    decode 0b0110_1010_1001_1100 = .ok (.ldVxByte 0xA 0x9C) ∧ decode 0b0111_0000_0000_0101 = .ok (.addVxByte 0 5) ∧
    decode 0b1100_0001_0000_1111 = .ok (.rndVxByte 1 0x0F) := by decide

theorem test_decode_families_5_9_D :
    decode 0b0101_0001_0010_0000 = .ok (.seVxVy 1 2) ∧ decode 0x5121 = .error (.invalidOpcode 0x5121) ∧
    decode 0b1001_0001_0010_0000 = .ok (.sneVxVy 1 2) ∧ decode 0x900F = .error (.invalidOpcode 0x900F) ∧
    decode 0b1101_0001_0010_0101 = .ok (.drwVxVyNibble 1 2 5) ∧ decode 0xD000 = .ok (.drwVxVyNibble 0 0 0) := by
  decide

theorem test_decode_family_8 :
    decode 0b1000_0001_0010_0000 = .ok (.ldVxVy 1 2) ∧ decode 0b1000_0001_0010_0001 = .ok (.orVxVy 1 2) ∧
    decode 0b1000_0001_0010_0010 = .ok (.andVxVy 1 2) ∧ decode 0b1000_0001_0010_0011 = .ok (.xorVxVy 1 2) ∧
    decode 0b1000_0001_0010_0100 = .ok (.addVxVy 1 2) ∧ decode 0b1000_0001_0010_0101 = .ok (.subVxVy 1 2) ∧
    decode 0b1000_0001_0010_0110 = .ok (.shrVxVy 1 2) ∧ decode 0b1000_0001_0010_0111 = .ok (.subnVxVy 1 2) ∧
    decode 0b1000_0001_0010_1110 = .ok (.shlVxVy 1 2) ∧ decode 0x8008 = .error (.invalidOpcode 0x8008) ∧
    decode 0x800D = .error (.invalidOpcode 0x800D) ∧ decode 0x800F = .error (.invalidOpcode 0x800F) := by decide

theorem test_decode_family_E :
    decode 0b1110_0010_1001_1110 = .ok (.skpVx 2) ∧ decode 0b1110_0010_1010_0001 = .ok (.sknpVx 2) ∧
    decode 0xE000 = .error (.invalidOpcode 0xE000) ∧ decode 0xE19F = .error (.invalidOpcode 0xE19F) := by decide

theorem test_decode_family_F :
    decode 0b1111_0001_0000_0111 = .ok (.ldVxDT 1) ∧ decode 0b1111_0001_0000_1010 = .ok (.ldVxK 1) ∧
    decode 0b1111_0001_0001_0101 = .ok (.ldDTVx 1) ∧ decode 0b1111_0001_0001_1000 = .ok (.ldSTVx 1) ∧
    decode 0b1111_0011_0001_1110 = .ok (.addIVx 3) ∧ decode 0b1111_0100_0010_1001 = .ok (.ldFVx 4) ∧
    decode 0b1111_0101_0011_0011 = .ok (.ldBVx 5) ∧ decode 0b1111_0010_0101_0101 = .ok (.ldMemVx 2) ∧
    decode 0b1111_0010_0110_0101 = .ok (.ldVxMem 2) ∧ decode 0xF000 = .error (.invalidOpcode 0xF000) ∧
    decode 0xF1FF = .error (.invalidOpcode 0xF1FF) ∧ decode 0xFFFF = .error (.invalidOpcode 0xFFFF) := by decide

/-- Byte order (R45): the byte at the lower address is bits 15..8; a lone byte is no word. -/
theorem test_decode_bytes :
    decodeBytes [0x60, 0x0A, 0x70, 0x05] = .ok (.ldVxByte 0 0x0A, [0x70, 0x05]) ∧
    decodeBytes [0x60] = .error .truncated ∧ decodeTableWord 16 0x600A = some (.ldVxByte 0 0x0A) ∧
    decodeTableWord 16 0x0000 = none := by decide

/-! ### Well-formedness: each check refuses an ill-formed term -/

theorem test_wellFormed_refuses :
    Configuration.wellFormed { cfg with ips := 0 } = false ∧ keyWellFormed 16 = false ∧
    imageWellFormed (List.replicate 3585 0) = false := by decide +kernel

theorem test_wellFormed_accepts :
    Configuration.wellFormed cfg = true ∧ keyWellFormed 15 = true ∧ imageWellFormed (List.replicate 3584 0) = true ∧
    (Instr.drwVxVyNibble 15 15 15).wellFormed = true ∧ (Instr.jpAddr 0xFFF).wellFormed = true := by decide +kernel

/-- Lists that are not in the canonical form: out of order, an address twice, one outside memory, a byte that an unlisted
address reads as. -/
theorem test_memory_wf_refuses :
    Memory.wf cfg.glyphs [(0x301, 1), (0x300, 1)] = false ∧ Memory.wf cfg.glyphs [(0x300, 1), (0x300, 2)] = false ∧
    Memory.wf cfg.glyphs [(4096, 1)] = false ∧ Memory.wf cfg.glyphs [(0x300, 0)] = false ∧
    Memory.wf cfg.glyphs [(0, 0xF0)] = false ∧ Memory.wf cfg.glyphs [(0, 0), (0xFFF, 1)] = true := by decide +kernel

/-! ### Control flow (§2.2 of the vectors) -/

theorem test_jp : after (start [0x12, 0x48]) (fun t => t.pc = 0x248) = true := by decide +kernel

theorem test_call :
    after (start [0x22, 0x02]) (fun t => t.stack[0] = 0x200 && t.sp = 1 && t.pc = 0x202) = true := by decide +kernel

theorem test_call_full : stops { start [0x22, 0x00] with sp := 16 } (.stackOverflow 0x200) = true := by decide +kernel

theorem test_ret :
    after { start [0x00, 0xEE] with sp := 1, stack := (Vector.replicate 16 0).set 0 0x200 }
      (fun t => t.sp = 0 && t.pc = 0x202 && t.stack[0] = 0x200) = true := by decide +kernel

theorem test_ret_empty : stops (start [0x00, 0xEE]) (.stackUnderflow 0x200) = true := by decide +kernel

theorem test_se_byte :
    after ((start [0x33, 0x10]).setReg 3 0x10) (fun t => t.pc = 0x204) = true ∧
    after ((start [0x33, 0x11]).setReg 3 0x10) (fun t => t.pc = 0x202) = true := by decide +kernel

theorem test_sne_byte :
    after ((start [0x43, 0x11]).setReg 3 0x10) (fun t => t.pc = 0x204) = true ∧
    after ((start [0x43, 0x10]).setReg 3 0x10) (fun t => t.pc = 0x202) = true := by decide +kernel

theorem test_se_reg :
    after (((start [0x51, 0x20]).setReg 1 7).setReg 2 7) (fun t => t.pc = 0x204) = true ∧
    after (((start [0x51, 0x20]).setReg 1 7).setReg 2 8) (fun t => t.pc = 0x202) = true := by decide +kernel

theorem test_sne_reg :
    after (((start [0x91, 0x20]).setReg 1 7).setReg 2 8) (fun t => t.pc = 0x204) = true ∧
    after (start [0x91, 0x10]) (fun t => t.pc = 0x202) = true := by decide +kernel

theorem test_jp_v0 :
    after ((start [0xB3, 0x00]).setReg 0 4) (fun t => t.pc = 0x304) = true ∧
    after ((start [0xBF, 0xFF]).setReg 0 0xFF) (fun t => t.pc = 0x10FE) = true := by decide +kernel

/-- Fetch at the top of memory: `0xFFF` faults, `0xFFE` does not (`1F FF`, `1F FE` of the vectors). -/
theorem test_fetch_top :
    stops { start [] with pc := 0xFFF } (.memoryFault 0xFFF 2 0xFFF) = true ∧
    stops { start [] with pc := 0x10FE } (.memoryFault 0x10FE 2 0x10FE) = true ∧
    stops { start [] with pc := 0xFFE } (.invalidOpcode 0x0000 0xFFE) = true ∧
    stops (start []) (.invalidOpcode 0x0000 0x200) = true := by decide +kernel

/-! ### Moves and arithmetic (§2.3) -/

theorem test_ld_byte : after (start [0x6A, 0x9C]) (fun t => t.reg 0xA = 0x9C) = true := by decide +kernel

theorem test_add_byte_no_flag :
    after (((start [0x70, 0x01]).setReg 0 0xFF).setReg 15 7) (fun t => t.reg 0 = 0 && t.reg 15 = 7) = true := by
  decide +kernel

theorem test_ld_reg : after ((start [0x81, 0x20]).setReg 2 0x3C) (fun t => t.reg 1 = 0x3C) = true := by decide +kernel

/-- `V1 = 0xF0`, `V2 = 0x3C`, `VF = 7`. -/
def logicStart (bytes : List Byte) : State := (((start bytes).setReg 1 0xF0).setReg 2 0x3C).setReg 15 7

theorem test_logic :
    after (logicStart [0x81, 0x21]) (fun t => t.reg 1 = 0xFC && t.reg 15 = 7) = true ∧
    after (logicStart [0x81, 0x22]) (fun t => t.reg 1 = 0x30 && t.reg 15 = 7) = true ∧
    after (logicStart [0x81, 0x23]) (fun t => t.reg 1 = 0xCC && t.reg 15 = 7) = true := by decide +kernel

/-- Two registers set, one instruction. -/
def two (bytes : List Byte) (x : RegIdx) (a : Byte) (y : RegIdx) (b : Byte) : State :=
  ((start bytes).setReg x a).setReg y b

theorem test_add_carry :
    after (two [0x81, 0x24] 1 0xC8 2 0x64) (fun t => t.reg 1 = 0x2C && t.reg 15 = 1) = true ∧
    after (two [0x81, 0x24] 1 0x80 2 0x7F) (fun t => t.reg 1 = 0xFF && t.reg 15 = 0) = true := by decide +kernel

theorem test_add_vf_operand :
    after (two [0x81, 0xF4] 1 0x10 15 3) (fun t => t.reg 1 = 0x13 && t.reg 15 = 0) = true ∧
    after (two [0x8F, 0x14] 15 0xFF 1 1) (fun t => t.reg 15 = 1) = true := by decide +kernel

theorem test_sub :
    after (two [0x81, 0x25] 1 0x64 2 0xC8) (fun t => t.reg 1 = 0x9C && t.reg 15 = 0) = true ∧
    after (two [0x81, 0x25] 1 7 2 7) (fun t => t.reg 1 = 0 && t.reg 15 = 1) = true ∧
    after (two [0x8F, 0x15] 15 5 1 7) (fun t => t.reg 15 = 0) = true := by decide +kernel

theorem test_subn :
    after (two [0x81, 0x27] 1 0x64 2 0xC8) (fun t => t.reg 1 = 0x64 && t.reg 15 = 1) = true ∧
    after (two [0x81, 0x27] 1 1 2 0) (fun t => t.reg 1 = 0xFF && t.reg 15 = 0) = true ∧
    after (two [0x8F, 0x17] 15 5 1 7) (fun t => t.reg 15 = 1) = true := by decide +kernel

/-- `V1 = 0x05`, `V2 = 0x10` for the right shift, `V3 = 0x81`, `V4 = 0x01` for the left, under both `SHIFT_SOURCE` values. -/
def shiftStart (src : ShiftSource) (bytes : List Byte) : State :=
  let s := two bytes 1 0x05 2 0x10
  { (s.setReg 3 0x81).setReg 4 0x01 with cfg := { cfg with shiftSource := src } }

theorem test_shr :
    after (shiftStart .vx [0x81, 0x26]) (fun t => t.reg 1 = 0x02 && t.reg 15 = 1) = true ∧
    after (shiftStart .vy [0x81, 0x26]) (fun t => t.reg 1 = 0x08 && t.reg 15 = 0) = true := by decide +kernel

theorem test_shl :
    after (shiftStart .vx [0x83, 0x4E]) (fun t => t.reg 3 = 0x02 && t.reg 15 = 1) = true ∧
    after (shiftStart .vy [0x83, 0x4E]) (fun t => t.reg 3 = 0x02 && t.reg 15 = 0) = true := by decide +kernel

/-! ### Addressing and random (§2.4, §2.5) -/

theorem test_ld_i : after (start [0xAF, 0xFF]) (fun t => t.i = 0xFFF) = true := by decide +kernel

theorem test_ld_f : after ((start [0xF2, 0x29]).setReg 2 0x1A) (fun t => t.i = 50) = true := by decide +kernel

theorem test_add_i :
    after (((start [0xF2, 0x1E]).setReg 2 1).setI 0xFFFF) (fun t => t.i = 0 && t.reg 15 = 0) = true ∧
    after (((start [0xF2, 0x1E]).setReg 2 0x10).setI 0x0FFF) (fun t => t.i = 0x100F) = true := by decide +kernel

theorem test_rnd :
    after (injectRandom [0xB7] (start [0xC1, 0x0F])) (fun t => t.reg 1 = 0x07) = true ∧
    after (injectRandom [0xB7] (start [0xC1, 0x00])) (fun t => t.reg 1 = 0 && t.rng = ⟨[], 1⟩) = true := by
  decide +kernel

/-- With nothing injected the draw is a free value, and the instruction completes; a zero mask writes 0 whatever it is. -/
theorem test_rnd_free : after (start [0xC1, 0x00]) (fun t => t.rng.draws = 1) = true := by decide +kernel

/-! ### BCD and bulk transfer (§2.6) -/

/-- The three bytes at an address. -/
def three (t : State) (a : Nat) : List Byte := [t.byteAt a, t.byteAt (a + 1), t.byteAt (a + 2)]

theorem test_bcd :
    after (((start [0xF5, 0x33]).setReg 5 0x9C).setI 0x300) (fun t => three t 0x300 = [1, 5, 6] && t.i = 0x300) = true ∧
    after (((start [0xF2, 0x33]).setReg 2 123).setI 0xFFD) (fun t => three t 0xFFD = [1, 2, 3]) = true := by
  decide +kernel

theorem test_bcd_fault :
    stops (((start [0xF2, 0x33]).setReg 2 7).setI 0xFFE) (.memoryFault 0xFFE 3 0x200) = true := by decide +kernel

/-- `V0 = 1`, `V1 = 2`, `V2 = 3`. -/
def regs123 (bytes : List Byte) : State := (two bytes 0 1 1 2).setReg 2 3

theorem test_dump :
    after ((regs123 [0xF2, 0x55]).setI 0x300)
      (fun t => three t 0x300 = [1, 2, 3] && t.byteAt 0x303 = 0 && t.i = 0x300) = true ∧
    stops ((start [0xFF, 0x55]).setI 0xFF1) (.memoryFault 0xFF1 16 0x200) = true := by decide +kernel

theorem test_load :
    after (((start [0xF0, 0x65]).setReg 1 0x99).setBytes 0x300 [0x42] |>.setI 0x300)
      (fun t => t.reg 0 = 0x42 && t.reg 1 = 0x99) = true ∧
    stops ((start [0xF1, 0x65]).setI 0xFFF) (.memoryFault 0xFFF 2 0x200) = true := by decide +kernel

/-! ### Display (§2.7) -/

theorem test_cls :
    returns ((start [0x00, 0xE0]).setFb (Framebuffer.blank.toggle 4 3)) true (fun t => litAt t []) = true ∧
    returns (start [0x60, 0x0A]) false (fun t => t.reg 0 = 0x0A) = true := by decide +kernel

/-- `DXY2` at (60, 31) with the rows `C3 81`. -/
def corner (edge : SpriteEdge) : State :=
  { ((two [0xD0, 0x12] 0 60 1 31).setBytes 0x300 [0xC3, 0x81]).setI 0x300 with cfg := { cfg with spriteEdge := edge } }

theorem test_drw_clip :
    returns (corner .clip) true (fun t => litAt t [(60, 31), (61, 31)] && t.reg 15 = 0) = true := by decide +kernel

theorem test_drw_wrap :
    after (corner .wrap)
      (fun t => litAt t [(60, 31), (61, 31), (2, 31), (3, 31), (60, 0), (3, 0)] && t.reg 15 = 0) = true := by
  decide +kernel

/-! ### Keypad (§2.8) -/

/-- One key slot set. -/
def withKey (k : Fin 16) (v : KeyState) (s : State) : State := { s with keys := s.keys.set k v }

theorem test_skp :
    after (withKey 5 .pressed ((start [0xE2, 0x9E]).setReg 2 5)) (fun t => t.pc = 0x204) = true ∧
    after (withKey 5 .released ((start [0xE2, 0x9E]).setReg 2 5)) (fun t => t.pc = 0x202 && t.key 5 = .idle) = true ∧
    after (withKey 5 .pressed ((start [0xE2, 0x9E]).setReg 2 0x15)) (fun t => t.pc = 0x202) = true := by
  decide +kernel

theorem test_sknp :
    after (withKey 5 .pressed ((start [0xE2, 0xA1]).setReg 2 5)) (fun t => t.pc = 0x202) = true ∧
    after (withKey 5 .pressed ((start [0xE2, 0xA1]).setReg 2 0x15)) (fun t => t.pc = 0x204) = true := by decide +kernel

theorem test_ld_k :
    after (withKey 9 .released (withKey 3 .released (withKey 1 .pressed (start [0xF4, 0x0A]))))
      (fun t => t.reg 4 = 3 && t.pc = 0x202 && t.key 3 = .idle && t.key 9 = .idle && t.key 1 = .pressed) = true ∧
    after (withKey 1 .pressed (start [0xF4, 0x0A])) (fun t => t.reg 4 = 0 && t.pc = 0x200) = true := by decide +kernel

/-! ### Timers and the host's ports (§2.9, §2.10) -/

/-- A state with another rate. -/
def atRate (r : Nat) (s : State) : State := { s with cfg := { s.cfg with ips := r } }

theorem test_ld_dt :
    after (atRate 600 ((start [0xF1, 0x15]).setReg 1 3)) (fun t => t.dt = 3 && t.accDT = 1 / 600) = true ∧
    after (atRate 45 ((start [0xF1, 0x15]).setReg 1 5)) (fun t => t.dt = 4 && t.accDT = 1 / 180) = true := by
  decide +kernel

theorem test_decay_two_per_cycle : after (atRate 30 ((start [0xF1, 0x15]).setReg 1 5)) (fun t => t.dt = 3) = true := by
  decide +kernel

theorem test_ld_vx_dt :
    after (atRate 60 { start [0xF1, 0x07] with dt := 1 }) (fun t => t.reg 1 = 1 && t.dt = 0 && t.accDT = 0) = true := by
  decide +kernel

theorem test_ld_st :
    after ((start [0xF1, 0x18]).setReg 1 0x3C) (fun t => t.st = 60 && t.accST = 1 / 600 && t.soundOn) = true ∧
    after { start [0xF1, 0x18] with st := 5 } (fun t => t.st = 0 && t.accST = 0 && !t.soundOn) = true := by
  decide +kernel

/-- `IPS = 500` and `70 01 70 01 FF FF`: `Fault(InvalidOpcode 0xFFFF, n = 2, redraw = false)`. -/
theorem test_advance_fault :
    (match advance 10000 (atRate 500 (start [0x70, 0x01, 0x70, 0x01, 0xFF, 0xFF])) with
      | .fault f n r t => f = .invalidOpcode 0xFFFF 0x204 && n = 2 && !r && t.clockAcc = 6000 && t.pc = 0x204 && t.reg 0 = 2
      | .ok _ _ _ | .refused _ _ _ _ => false) = true := by decide +kernel

/-- `IPS = 700`: 1000 microseconds run no cycle, and the time is kept. -/
theorem test_advance_carries :
    (match advance 1000 (atRate 700 (start [0x70, 0x01])) with
      | .ok n r t => n = 0 && !r && t.clockAcc = 1000
      | .fault _ _ _ _ | .refused _ _ _ _ => false) = true ∧
    (match advance 1000 ((atRate 700 (start [0x70, 0x01])).withClock 1000) with
      | .ok n r t => n = 1 && !r && t.clockAcc = 4000 / 7 && t.reg 0 = 1
      | .fault _ _ _ _ | .refused _ _ _ _ => false) = true := by decide +kernel

theorem test_key_port :
    (match setKey 4 .released (start []) with | .ok t => t.key 4 = .released | .error _ => false) = true ∧
    (match setKey 16 .pressed (start []) with | .ok _ => false | .error e => e = .keyOutOfRange) = true ∧
    (match setRate 0 (start []) with | .ok _ => false | .error e => e = .zeroRate) = true := by decide +kernel

/-- Reset erases the program and keeps the configuration and the random source. -/
theorem test_reset :
    hostReset (injectRandom [7] ((start [0x60, 0x0A]).setReg 1 5)) =
      { State.construct cfg with rng := ⟨[7], 0⟩ } := by decide +kernel

/-! ### Witnesses: states and operands that meet the hypotheses of each statement, by clause -/

/-- The instruction completes on the state. -/
def runsOn (i : Instr) (s : State) : Bool :=
  match exec i s with
  | .next _ => true
  | .fault _ => false
  | .refused _ => false

/-- The instruction faults on the state. -/
def faultsOn (i : Instr) (s : State) : Bool :=
  match exec i s with
  | .next _ => false
  | .fault _ => true
  | .refused _ => false

/-- The state that the cycle leaves; the state itself where the cycle does not complete. -/
def nextOf (s : State) : State :=
  match step s with
  | .next t => t
  | .fault _ => s
  | .refused _ => s

theorem runsOn_next {i : Instr} {s : State} (h : runsOn i s = true) : ∃ t, exec i s = .next t := by
  unfold runsOn at h
  cases hx : exec i s with
  | next t => exact ⟨t, rfl⟩
  | fault f => simp [hx] at h
  | refused r => simp [hx] at h

theorem faultsOn_fault {i : Instr} {s : State} (h : faultsOn i s = true) : ∃ f, exec i s = .fault f := by
  unfold faultsOn at h
  cases hx : exec i s with
  | next t => simp [hx] at h
  | fault f => exact ⟨f, rfl⟩
  | refused r => simp [hx] at h

theorem after_next {s : State} {p : State → Bool} (h : after s p = true) :
    step s = .next (nextOf s) ∧ p (nextOf s) = true := by
  unfold after at h
  unfold nextOf
  cases hs : step s with
  | next t => exact ⟨rfl, by simpa [hs] using h⟩
  | fault f => simp [hs] at h
  | refused r => simp [hs] at h

theorem stops_fault {s : State} {f : Fault} (h : stops s f = true) : step s = .fault f := by
  unfold stops at h
  cases hs : step s with
  | next t => simp [hs] at h
  | fault g => simp only [hs, decide_eq_true_eq] at h; rw [h]
  | refused r => simp [hs] at h

theorem witness_EncodeOfDecode : decode 0xF365 = .ok (.ldVxMem 3) := by decide

/-- An instruction at the last address that a fetch reaches. -/
def last (w : Word) : State := ({ start [] with pc := 0xFFE } : State).setBytes 0xFFE (bytesOfWord w)

theorem witness_StepRuns_fetch_fault : ({ start [] with pc := 0xFFF } : State).pc.toNat + 2 > 4096 := by decide

theorem witness_StepRuns_invalid :
    (last 0x0000).pc.toNat + 2 ≤ 4096 ∧
      decode (last 0x0000).wordAtPc = .error (.invalidOpcode (last 0x0000).wordAtPc) := by decide +kernel

theorem witness_StepRuns_next :
    (last 0x6A9C).pc.toNat + 2 ≤ 4096 ∧ decode (last 0x6A9C).wordAtPc = .ok (.ldVxByte 0xA 0x9C) ∧
      ∃ t, exec (.ldVxByte 0xA 0x9C) (last 0x6A9C) = .next t :=
  ⟨by decide, by decide +kernel, runsOn_next (by decide +kernel)⟩

theorem witness_StepRuns_fault :
    (last 0x00EE).pc.toNat + 2 ≤ 4096 ∧ decode (last 0x00EE).wordAtPc = .ok .ret ∧
      ∃ f, exec .ret (last 0x00EE) = .fault f :=
  ⟨by decide, by decide +kernel, faultsOn_fault (by decide +kernel)⟩

theorem witness_StoredWordIsRun : ({ start [] with pc := 0xFFE } : State).pc.toNat + 2 ≤ 4096 := by decide

theorem witness_Decay_stopped : (0 : Byte) = 0 ∧ (0 : Rat) ≤ 0 ∧ (0 : Rat) ≤ 1 / 60 := by decide +kernel

theorem witness_Decay_below : (1 : Byte) ≠ 0 ∧ (1 / 100 : Rat) + 1 / 600 < 1 / 60 := by decide +kernel

theorem witness_Decay_at_threshold : (1 : Byte) ≠ 0 ∧ (1 / 60 : Rat) ≤ 0 + 1 / 60 := by decide +kernel

theorem witness_DecayInClosedForm : (255 : Byte) ≠ 0 ∧ (0 : Rat) ≤ 1 / 90 ∧ (0 : Rat) ≤ 1 / 30 := by decide +kernel

theorem witness_Decay_cycle :
    (last 0xF115).About (.ldDTVx 1) ∧ ∃ t, exec (.ldDTVx 1) (last 0xF115) = .next t :=
  ⟨⟨by decide, by decide +kernel⟩, runsOn_next (by decide +kernel)⟩

theorem returns_ok {s : State} {r : Bool} {p : State → Bool} (h : returns s r p = true) : ∃ t, cycle s = .ok r t := by
  unfold returns at h
  cases hs : cycle s with
  | ok q t => exact ⟨t, by simp only [hs, Bool.and_eq_true, decide_eq_true_eq] at h; rw [h.1.1]⟩
  | fault f => simp [hs] at h
  | refused r => simp [hs] at h

/-- A cycle that returns each indication; the one of `00E0` is true whatever the state had in the field before. -/
theorem witness_RedrawIsAnOutput :
    (∃ t, cycle (last 0x00E0) = .ok true t) ∧ (∃ t, cycle (last 0x60FF) = .ok false t) ∧
      ∃ t, cycle ((last 0x60FF).withRedraw true) = .ok false t :=
  ⟨returns_ok (p := fun _ => true) (by decide +kernel), returns_ok (p := fun _ => true) (by decide +kernel),
    returns_ok (p := fun _ => true) (by decide +kernel)⟩

theorem witness_EdgesClearedEveryCycle :
    ∃ t, step (withKey 9 .released (start [0x60, 0x0A])) = .next t ∧
      (withKey 9 .released (start [0x60, 0x0A])).key 9 = .released :=
  ⟨_, (after_next (p := fun _ => true) (by decide +kernel)).1, by decide +kernel⟩

theorem witness_EdgesCleared_pressed :
    ∃ t, step (withKey 9 .pressed (start [0xF4, 0x0A])) = .next t ∧
      (withKey 9 .pressed (start [0xF4, 0x0A])).key 9 ≠ .released :=
  ⟨_, (after_next (p := fun _ => true) (by decide +kernel)).1, by decide +kernel⟩

theorem witness_ResetValues_addresses : 80 ≤ 80 ∧ 80 < 4096 ∧ 80 ≤ 4095 ∧ 4095 < 4096 := by decide

/-- A timer just written is legal. -/
theorem timerLegal_restart (b : Byte) : TimerLegal b 0 :=
  ⟨by decide +kernel, by decide +kernel, fun _ => rfl⟩

/-- A legal state at the last address that a fetch reaches, with a full stack and a running timer. -/
def busy (w : Word) : State :=
  { last w with sp := 16, stack := Vector.replicate 16 0xFFE, dt := 3 }

theorem busy_legal (w : Word) (h : Memory.wf cfg.glyphs (last w).mem = true) : (busy w).Inv :=
  { pcBound := (by decide : (0xFFE : Word).toNat ≤ 0x10FE)
    callers := fun k => by simp [busy]
    spBound := (by decide : (16 : Byte).toNat ≤ 16)
    memory := h
    rate := (by decide : 0 < 600)
    delay := timerLegal_restart 3
    sound := timerLegal_restart 0
    clock := le_refl (0 : Rat)
    quiet := rfl }

theorem witness_StepKeepsLegal :
    (busy 0x00EE).Inv ∧ ∃ t, step (busy 0x00EE) = .next t ∧ t.pc = 0x1000 ∧ t.sp = 15 :=
  ⟨busy_legal _ (by decide +kernel), _,
    (after_next (p := fun t => t.pc = 0x1000 && t.sp = 15) (by decide +kernel)).1, by decide +kernel, by decide +kernel⟩

theorem witness_HostCallsKeepLegal : (busy 0x00E0).Inv := busy_legal _ (by decide +kernel)

theorem witness_PcNeverWraps : (busy 0x3000).Inv ∧ ∃ t, step (busy 0x3000) = .next t ∧ t.pc = 0x1002 :=
  ⟨busy_legal _ (by decide +kernel), _, (after_next (p := fun t => t.pc = 0x1002) (by decide +kernel)).1,
    by decide +kernel⟩

theorem witness_MemoryAccess_read : 0xFFE + 3 > 4096 ∧ 4097 + 0 > 4096 ∧ 0xFFD + 3 ≤ 4096 ∧ 4096 + 0 ≤ 4096 := by decide

theorem witness_MemoryAccess_write :
    0xFFE + [(1 : Byte), 2, 3].length > 4096 ∧ 0xFFD + [(1 : Byte), 2, 3].length ≤ 4096 ∧ 4096 + ([] : List Byte).length ≤ 4096 := by
  decide

theorem witness_CanonicalMemoryUnique :
    Memory.wf cfg.glyphs [(0, 0), (0xFFF, 1)] = true ∧
      ∀ a, Memory.read cfg.glyphs [(0, 0), (0xFFF, 1)] a = Memory.read cfg.glyphs [(0, 0), (0xFFF, 1)] a :=
  ⟨by decide +kernel, fun _ => rfl⟩

/-- A storing instruction at `0x200`, or at the last address whose successor can be fetched, with `V0 = 0x60`, `V1 = 0x0A`,
`V5 = 156` and `I` as given. -/
def storing (op : Byte × Byte) (pc i : Word) : State :=
  (((({ start [] with pc := pc } : State).setBytes pc.toNat [op.1, op.2]).setReg 0 0x60).setReg 1 0x0A).setReg 5 156 |>.setI i

/-- The word that the next cycle fetches is the one given. -/
def fetchesNext (s : State) (w : Word) : Bool :=
  after s fun t => match fetch t with
    | .ok v => v = w
    | .error _ => false

/-- The stored bytes over both bytes of the next word, over its first, over its second and over neither (R45, R53, R119). -/
theorem test_store_seen_dump :
    fetchesNext (storing (0xF1, 0x55) 0x200 0x202) 0x600A = true ∧ fetchesNext (storing (0xF1, 0x55) 0x200 0x201) 0x0A00 = true ∧
    fetchesNext (storing (0xF0, 0x55) 0x200 0x203) 0x0060 = true ∧ fetchesNext (storing (0xF0, 0x55) 0xFFC 0xFFF) 0x0060 = true ∧
    fetchesNext (storing (0xF1, 0x55) 0x200 0x300) 0x0000 = true := by decide +kernel

/-- The digits 1, 5, 6 over the next word from each place that reaches it (R118). -/
theorem test_store_seen_bcd :
    fetchesNext (storing (0xF5, 0x33) 0x200 0x203) 0x0001 = true ∧ fetchesNext (storing (0xF5, 0x33) 0x200 0x202) 0x0105 = true ∧
    fetchesNext (storing (0xF5, 0x33) 0x200 0x201) 0x0506 = true ∧ fetchesNext (storing (0xF5, 0x33) 0x200 0x200) 0x0600 = true := by
  decide +kernel

/-- The conditions of `StoreSeenByNextFetch` that lie before its clauses. -/
def nextWordFetchable (s : State) : Bool := after s fun t => t.pc.toNat + 2 ≤ 4096

theorem witness_StoreSeen_dump :
    (storing (0xF0, 0x55) 0xFFC 0xFFF).About (.ldMemVx 0) ∧ nextWordFetchable (storing (0xF0, 0x55) 0xFFC 0xFFF) = true ∧
      (0 : RegIdx).val ≤ (0 : RegIdx).val ∧ 0xFFE + 1 = (storing (0xF0, 0x55) 0xFFC 0xFFF).i.toNat + (0 : RegIdx).val ∧
      0xFFE + 0 < (storing (0xF0, 0x55) 0xFFC 0xFFF).i.toNat :=
  ⟨⟨by decide, by decide +kernel⟩, by decide +kernel, by decide, by decide +kernel, by decide +kernel⟩

theorem witness_StoreSeen_dump_above :
    (storing (0xF1, 0x55) 0x200 0x201).About (.ldMemVx 1) ∧ nextWordFetchable (storing (0xF1, 0x55) 0x200 0x201) = true ∧
      0x202 + 0 = (storing (0xF1, 0x55) 0x200 0x201).i.toNat + (1 : RegIdx).val ∧
      (storing (0xF1, 0x55) 0x200 0x201).i.toNat + (1 : RegIdx).val < 0x202 + 1 :=
  ⟨⟨by decide, by decide +kernel⟩, by decide +kernel, by decide +kernel, by decide +kernel⟩

theorem witness_StoreSeen_bcd :
    (storing (0xF5, 0x33) 0x200 0x202).About (.ldBVx 5) ∧ nextWordFetchable (storing (0xF5, 0x33) 0x200 0x202) = true ∧
      0x202 + 0 = (storing (0xF5, 0x33) 0x200 0x202).i.toNat ∧ 0x202 + 1 = (storing (0xF5, 0x33) 0x200 0x202).i.toNat + 1 :=
  ⟨⟨by decide, by decide +kernel⟩, by decide +kernel, by decide +kernel, by decide +kernel⟩

theorem witness_StoreSeen_bcd_above :
    (storing (0xF5, 0x33) 0x200 0x200).About (.ldBVx 5) ∧ nextWordFetchable (storing (0xF5, 0x33) 0x200 0x200) = true ∧
      0x202 + 0 = (storing (0xF5, 0x33) 0x200 0x200).i.toNat + 2 ∧ (storing (0xF5, 0x33) 0x200 0x200).i.toNat + 2 < 0x202 + 1 :=
  ⟨⟨by decide, by decide +kernel⟩, by decide +kernel, by decide +kernel, by decide +kernel⟩

theorem witness_StoreSeen_bcd_below :
    (storing (0xF5, 0x33) 0x200 0x203).About (.ldBVx 5) ∧ nextWordFetchable (storing (0xF5, 0x33) 0x200 0x203) = true ∧
      0x202 + 0 < (storing (0xF5, 0x33) 0x200 0x203).i.toNat :=
  ⟨⟨by decide, by decide +kernel⟩, by decide +kernel, by decide +kernel⟩

theorem witness_exec_completes : ∃ t, exec (.jpAddr 0x248) (start []) = .next t := ⟨_, rfl⟩

/-- For `WritersOfEachPart`, `FlagWrittenOnlyByFlagWriters`, `PcActionsByInstruction`, `RedrawIndication`: an instruction of
each kind completes. -/
theorem witness_exec_completes_by_kind :
    runsOn .cls (start []) = true ∧ runsOn (.callAddr 0x300) (start []) = true ∧ runsOn (.addVxVy 15 15) (start []) = true ∧
      runsOn (.ldVxByte 14 1) (start []) = true ∧ runsOn (.seVxByte 0 0) (start []) = true ∧
      runsOn (.ldVxK 3) (start []) = true ∧ runsOn (.ldMemVx 15) (start []) = true ∧
      runsOn (.ldIAddr 1) (start []) = true ∧ runsOn (.drwVxVyNibble 0 0 15) (start []) = true ∧
      runsOn (.ldDTVx 1) (start []) = true ∧ runsOn (.ldSTVx 1) (start []) = true ∧
      runsOn (.rndVxByte 1 0) (start []) = true ∧ runsOn (.ldVxMem 15) (start []) = true := by decide +kernel

theorem witness_Call_full : ({ start [] with sp := 16 } : State).sp.toNat = 16 := by decide

theorem witness_Call_room :
    (start []).sp.toNat = (0 : Fin 16).val ∧ ({ start [] with sp := 15 } : State).sp.toNat = (15 : Fin 16).val := by decide

theorem witness_Ret_empty : (start []).sp = 0 := by decide

theorem witness_Ret_occupied :
    ({ start [] with sp := 1 } : State).sp.toNat = (0 : Fin 16).val + 1 ∧
      ({ start [] with sp := 16 } : State).sp.toNat = (15 : Fin 16).val + 1 := by decide

theorem witness_CallThenRet :
    ∃ t, exec (.callAddr 0x300) { start [] with sp := 15 } = .next t ∧ t.sp = t.sp ∧ t.stack = t.stack := by
  obtain ⟨t, h⟩ := runsOn_next (i := .callAddr 0x300) (s := { start [] with sp := 15 }) (by decide +kernel)
  exact ⟨t, h, rfl, rfl⟩

theorem witness_SkipsOnImmediate : (start []).reg 3 = 0x00 ∧ (start []).reg 3 ≠ 0x01 := by decide

theorem witness_flag_destination : (0 : RegIdx) ≠ regVF ∧ (14 : RegIdx) ≠ regVF := by decide

theorem witness_ShiftsByOne :
    (shiftStart .vx []).cfg.shiftSource = .vx ∧ (0x05 : Byte) = (shiftStart .vx []).reg 1 ∧
      (shiftStart .vy []).cfg.shiftSource = .vy ∧ (0x10 : Byte) = (shiftStart .vy []).reg 2 := by decide +kernel

theorem witness_RandomMasked : (injectRandom [0x12, 0x34] (start [])).rng.injected = 0x12 :: [0x34] := by decide

theorem witness_Bcd :
    ((start []).setI 0xFFE).i.toNat + 3 > 4096 ∧ ((start []).setI 0xFFD).i.toNat + 3 ≤ 4096 := by decide

theorem witness_Bulk :
    ((start []).setI 0xFF1).i.toNat + ((15 : RegIdx).val + 1) > 4096 ∧
      ((start []).setI 0xFF0).i.toNat + ((15 : RegIdx).val + 1) ≤ 4096 ∧
      ((start []).setI 0x1000).i.toNat + ((0 : RegIdx).val + 1) > 4096 ∧
      ((start []).setI 0xFFF).i.toNat + ((0 : RegIdx).val + 1) ≤ 4096 := by decide

theorem witness_DumpThenLoad :
    ∃ t, exec (.ldMemVx 15) ((start []).setI 0xFF0) = .next t ∧ t.i = t.i ∧ ∀ a, t.byteAt a = t.byteAt a := by
  obtain ⟨t, h⟩ := runsOn_next (i := .ldMemVx 15) (s := (start []).setI 0xFF0) (by decide +kernel)
  exact ⟨t, h, rfl, fun _ => rfl⟩

theorem witness_Draw_bounds :
    ((start []).setI 0x1001).i.toNat + (0 : Nibble).val > 4096 ∧ ((start []).setI 0x1000).i.toNat + (0 : Nibble).val ≤ 4096 ∧
      ((start []).setI 0xFF2).i.toNat + (15 : Nibble).val > 4096 ∧ ((start []).setI 0xFF1).i.toNat + (15 : Nibble).val ≤ 4096 := by
  decide

/-- `C3 81` at (60, 31): a set bit lands on (60, 31) under both edges, and on (3, 0) under `WRAP`. -/
theorem witness_Draw_covered :
    Covered .clip [0xC3, 0x81] 60 31 60 31 ∧ Covered .wrap [0xC3, 0x81] 60 31 3 0 :=
  ⟨⟨0, 0, ⟨0xC3, rfl, by decide, by decide⟩, by decide, by decide⟩,
    ⟨1, 7, ⟨0x81, rfl, by decide, by decide⟩, by decide, by decide⟩⟩

/-- Under `CLIP` the bit past both edges lands nowhere. -/
theorem witness_Draw_uncovered : ¬ Covered .clip [0xC3, 0x81] 60 31 3 0 := by
  rintro ⟨r, c, _, h, _⟩
  change 60 + c = 3 at h
  omega

theorem witness_Draw_collision :
    Covered .clip [0xFF] 0 0 0 0 ∧ (Framebuffer.blank.toggle 0 0).get 0 0 = .on ∧ Framebuffer.blank.get 0 0 = .off :=
  ⟨⟨0, 0, ⟨0xFF, rfl, by decide, by decide⟩, by decide, by decide⟩, by decide +kernel, by decide +kernel⟩

theorem witness_DrawTwice : (List.replicate 15 (0xFF : Byte)).length ≤ 15 ∧ 63 < 64 ∧ 31 < 32 := by decide

theorem witness_DrawTwice_blank :
    ∀ px py, Covered .wrap [0x81] 63 31 px py → Framebuffer.blank.get px py = .off := fun px py _ => Framebuffer.get_blank px py

theorem witness_DrawTwice_bits : SpriteBit [0x81] 0 0 ∧ SpriteBit [0x81] 0 7 ∧ LandsOn .wrap 63 31 0 0 63 31 :=
  ⟨⟨0x81, rfl, by decide, by decide⟩, ⟨0x81, rfl, by decide, by decide⟩, by decide, by decide⟩

theorem witness_SkipsOnKey_down :
    ∃ k : Fin 16, k.val = ((start []).setReg 2 15 |>.reg 2).toNat ∧ (withKey 15 .pressed (start [])).key k = .pressed :=
  ⟨15, by decide +kernel, by decide +kernel⟩

theorem witness_SkipsOnKey_no_key :
    ¬ ∃ k : Fin 16, k.val = ((start []).setReg 2 16 |>.reg 2).toNat ∧ (withKey 0 .pressed (start [])).key k = .pressed := by
  decide +kernel

theorem witness_KeyWait_edge :
    (withKey 15 .released (start [])).key 15 = .released ∧
      (∀ j : Fin 16, j < 15 → (withKey 15 .released (start [])).key j ≠ .released) ∧
      (withKey 0 .released (start [])).key 0 = .released ∧
      ∀ j : Fin 16, j < 0 → (withKey 0 .released (start [])).key j ≠ .released := by decide +kernel

theorem witness_KeyWait_none : ∀ k, (withKey 1 .pressed (start [])).key k ≠ .released := by decide +kernel

theorem witness_KeyWaitCycles :
    (start [0xF4, 0x0A]).About (.ldVxK 4) ∧ (∀ k, (start [0xF4, 0x0A]).key k ≠ .released) :=
  ⟨⟨by decide, by decide +kernel⟩, by decide +kernel⟩

theorem witness_KeyWaitCycles_edge :
    (withKey 15 .released (start [0xF4, 0x0A])).About (.ldVxK 4) ∧
      (withKey 15 .released (start [0xF4, 0x0A])).key 15 = .released ∧
      ∀ j : Fin 16, j < 15 → (withKey 15 .released (start [0xF4, 0x0A])).key j ≠ .released :=
  ⟨⟨by decide, by decide +kernel⟩, by decide +kernel, by decide +kernel⟩

theorem witness_KeyPostAssigns : 16 > 15 ∧ (15 : Fin 16).val = 15 := by decide

theorem witness_OnlyTimerInstructions :
    (∃ x, Instr.ldSTVx 1 = .ldSTVx x) ∧ (¬ ∃ x, Instr.ldDTVx 1 = .ldSTVx x) ∧
      ∃ t, exec (.ldVxDT 1) (start []) = .next t := ⟨⟨1, rfl⟩, by simp, _, rfl⟩

/-- `F1 15 12 02`, or `F1 18 12 02`, with `V1 = 3`, and its states, one a cycle. -/
def timerRun (op : Byte) : Nat → State
  | 0 => (start [0xF1, op, 0x12, 0x02]).setReg 1 3
  | k + 1 => nextOf (timerRun op k)

theorem witness_TimerLaw :
    0 < (timerRun 0x15 0).cfg.ips ∧ (∀ k, k < 2 → step (timerRun 0x15 k) = .next (timerRun 0x15 (k + 1))) ∧
      (timerRun 0x15 0).About (.ldDTVx 1) ∧ ∀ k y, 1 ≤ k → k < 2 → ¬ (timerRun 0x15 k).About (.ldDTVx y) := by
  refine ⟨by decide, fun k hk => ?_, ⟨by decide, by decide +kernel⟩, fun k y h1 h2 h => ?_⟩
  · interval_cases k
    · exact (after_next (p := fun _ => true) (by decide +kernel)).1
    · exact (after_next (p := fun _ => true) (by decide +kernel)).1
  · obtain rfl : k = 1 := by omega
    have hd : decode (timerRun 0x15 1).wordAtPc = .ok (.jpAddr 0x202) := by decide +kernel
    have := hd.symm.trans h.2
    simp at this

theorem witness_TimerLaw_sound :
    0 < (timerRun 0x18 0).cfg.ips ∧ (∀ k, k < 2 → step (timerRun 0x18 k) = .next (timerRun 0x18 (k + 1))) ∧
      (timerRun 0x18 0).About (.ldSTVx 1) ∧ ∀ k y, 1 ≤ k → k < 2 → ¬ (timerRun 0x18 k).About (.ldSTVx y) := by
  refine ⟨by decide, fun k hk => ?_, ⟨by decide, by decide +kernel⟩, fun k y h1 h2 h => ?_⟩
  · interval_cases k
    · exact (after_next (p := fun _ => true) (by decide +kernel)).1
    · exact (after_next (p := fun _ => true) (by decide +kernel)).1
  · obtain rfl : k = 1 := by omega
    have hd : decode (timerRun 0x18 1).wordAtPc = .ok (.jpAddr 0x202) := by decide +kernel
    have := hd.symm.trans h.2
    simp at this

/-- At `IPS = 600`, 9 decays after `DT` was set to 3 the tenth takes a whole sixtieth away. -/
theorem witness_DecayedTimerKept :
    0 < (start [0x60, 0x0A]).cfg.ips ∧
      ({ start [0x60, 0x0A] with dt := 3, accDT := 9 / 600, st := 1, accST := 9 / 600 } : State).About (.ldVxByte 0 0x0A) ∧
      (∃ t, step { start [0x60, 0x0A] with dt := 3, accDT := 9 / 600, st := 1, accST := 9 / 600 } = .next t) ∧
      DecayedFrom 3 600 9 3 (9 / 600) ∧ DecayedFrom 1 600 9 1 (9 / 600) :=
  ⟨by decide, ⟨by decide, by decide +kernel⟩, ⟨_, (after_next (p := fun _ => true) (by decide +kernel)).1⟩,
    ⟨by decide, fun _ => by decide +kernel⟩, ⟨by decide, fun _ => by decide +kernel⟩⟩

theorem witness_DecayedTimerKept_start :
    (start [0xF1, 0x15]).About (.ldDTVx 1) ∧ (∃ t, step (start [0xF1, 0x15]) = .next t) ∧
      (start [0xF1, 0x18]).About (.ldSTVx 1) ∧ ∃ t, step (start [0xF1, 0x18]) = .next t :=
  ⟨⟨by decide, by decide +kernel⟩, ⟨_, (after_next (p := fun _ => true) (by decide +kernel)).1⟩,
    ⟨by decide, by decide +kernel⟩, ⟨_, (after_next (p := fun _ => true) (by decide +kernel)).1⟩⟩

theorem witness_FaultsByInstruction :
    faultsOn (.callAddr 0x200) { start [] with sp := 16 } = true ∧ faultsOn .ret (start []) = true ∧
      faultsOn (.drwVxVyNibble 0 0 0) ((start []).setI 0x1001) = true ∧ faultsOn (.ldBVx 0) ((start []).setI 0xFFE) = true ∧
      faultsOn (.ldMemVx 15) ((start []).setI 0xFF1) = true ∧ faultsOn (.ldVxMem 0) ((start []).setI 0x1000) = true := by
  decide +kernel

theorem witness_FaultPriority :
    step { start [] with pc := 0xFFF } = .fault (.memoryFault 0xFFF 2 0xFFF) ∧
      step (start []) = .fault (.invalidOpcode 0 0x200) ∧ step (start [0x00, 0xEE]) = .fault (.stackUnderflow 0x200) :=
  ⟨stops_fault (by decide +kernel), stops_fault (by decide +kernel), stops_fault (by decide +kernel)⟩

theorem witness_StepIgnoresTheClock : ∃ t, step (start [0x60, 0x0A]) = .next t :=
  ⟨_, (after_next (p := fun _ => true) (by decide +kernel)).1⟩

/-- `IPS = 600`, so `P = 5000/3`: 1667 microseconds are one cycle. -/
theorem witness_AdvanceRuns :
    0 < (start [0x60, 0x0A]).cfg.ips ∧ 0 ≤ (start [0x60, 0x0A]).clockAcc ∧
      (((start [0x60, 0x0A]).clockAcc + (1667 : Nat)) / (1000000 / ((start [0x60, 0x0A]).cfg.ips : Rat))).floor.toNat = 1 ∧
      ∃ u, Sys2Proof.core.run 1 (start [0x60, 0x0A]) = .next u :=
  ⟨by decide, by decide +kernel, by decide +kernel, _,
    run_succ 0 (after_next (p := fun _ => true) (by decide +kernel)).1⟩

/-- The second cycle faults and 3334 microseconds are two cycles. -/
theorem witness_AdvanceStops :
    0 < (start [0x60, 0x0A]).cfg.ips ∧ 0 ≤ (start [0x60, 0x0A]).clockAcc ∧
      ((1 : Nat) + 1 : Rat) * (1000000 / ((start [0x60, 0x0A]).cfg.ips : Rat)) ≤ (start [0x60, 0x0A]).clockAcc + (3334 : Nat) ∧
      Sys2Proof.core.run 1 (start [0x60, 0x0A]) = .next (nextOf (start [0x60, 0x0A])) ∧
      step (nextOf (start [0x60, 0x0A])) = .fault (.invalidOpcode 0 0x202) :=
  ⟨by decide, by decide +kernel, by decide +kernel, run_succ 0 (after_next (p := fun _ => true) (by decide +kernel)).1,
    stops_fault (by decide +kernel)⟩

theorem witness_RateChange : (0 : Nat) = 0 ∧ (1 : Nat) ≠ 0 := by decide

theorem witness_ProgramLoad :
    (List.replicate 3585 (0 : Byte)).length > 3584 ∧ (List.replicate 3584 (0 : Byte)).length ≤ 3584 := by
  rw [List.length_replicate, List.length_replicate]
  omega

end Sys2Proof.Tests
end

/-! SUPPORT. What every instruction may write, which PC action it may return and which indication it gives, read off the
inversion of `exec` once; the statements about all instructions follow from these. -/

namespace Sys2Proof.Machine

-- One theorem after another: many at once ask for more threads than a memory limit of the check allows.
set_option Elab.async false

variable {s t : State} {i : Instr}

/-! ### The effect of an instruction, by kind -/

/-- The parts of the state, `PC` and `redraw` aside, that an instruction may write (10_state.md). -/
def MayWrite (i : Instr) (p : Part) : Prop :=
  match i with
  | .jpAddr _ | .jpV0Addr _ | .seVxByte _ _ | .sneVxByte _ _ | .seVxVy _ _ | .sneVxVy _ _ | .skpVx _ | .sknpVx _ => False
  | .cls => ∃ x y, p = .pixel x y
  | .ret => p = .sp
  | .callAddr _ => (∃ k, p = .stackEntry k) ∨ p = .sp
  | .ldVxByte x _ | .addVxByte x _ | .ldVxVy x _ | .orVxVy x _ | .andVxVy x _ | .xorVxVy x _ | .ldVxDT x | .ldVxK x =>
    p = .reg x
  | .addVxVy x _ | .subVxVy x _ | .subnVxVy x _ | .shrVxVy x _ | .shlVxVy x _ => p = .reg x ∨ p = .reg regVF
  | .rndVxByte x _ => p = .rng ∨ p = .reg x
  | .drwVxVyNibble _ _ _ => (∃ x y, p = .pixel x y) ∨ p = .reg regVF
  | .ldIAddr _ | .addIVx _ | .ldFVx _ => p = .i
  | .ldDTVx _ => p = .dt ∨ p = .accDT
  | .ldSTVx _ => p = .st ∨ p = .accST
  | .ldBVx _ | .ldMemVx _ => ∃ a, p = .byte a
  | .ldVxMem x => ∃ r : RegIdx, r.val ≤ x.val ∧ p = .reg r

/-- The PC actions that an instruction may return from a state (R74). -/
def MayReturn (i : Instr) (s : State) (a : PcAction) : Prop :=
  match i with
  | .jpAddr nnn | .callAddr nnn => a = .jump (zext16 nnn)
  | .jpV0Addr nnn => a = .jump (indirectTarget s nnn)
  | .ret => s.sp ≠ 0 ∧ a = .jump (s.stackTop + 2)
  | .seVxByte _ _ | .sneVxByte _ _ | .seVxVy _ _ | .sneVxVy _ _ | .skpVx _ | .sknpVx _ => a = .next ∨ a = .skip
  | .ldVxK _ => a = .next ∨ a = .again
  | _ => a = .next

/-- The redraw indication an instruction returns (R133). -/
def indicates : Instr → Bool
  | .cls | .drwVxVyNibble _ _ _ => true
  | _ => false

/-- An update of the state that an instruction may make before it finishes. Memory is held as data here, not byte by byte,
because its canonical form is a fact about the data. -/
structure Updates (i : Instr) (s u : State) : Prop where
  frame : KeepsAllBut (MayWrite i) s u
  store : u.mem = s.mem ∨
    ∃ bytes : List Byte, s.i.toNat + bytes.length ≤ 4096 ∧ u.mem = (s.setBytes s.i.toNat bytes).mem

/-- Frames of two updates, one after the other. -/
theorem KeepsAllBut.trans_or {W W' : Part → Prop} {s t u : State} (h : KeepsAllBut W s t) (h' : KeepsAllBut W' t u) :
    KeepsAllBut (fun p => W p ∨ W' p) s u :=
  (h.mono fun _ => Or.inl).trans (h'.mono fun _ => Or.inr)

theorem keepsAllBut_refl (W : Part → Prop) (s : State) : KeepsAllBut W s s := by
  intro p _
  cases p <;> rfl

theorem keeps_drawSprite (x y : RegIdx) (rows : List Byte) (s : State) :
    KeepsAllBut (fun p => (∃ x y, p = .pixel x y) ∨ p = .reg regVF) s (drawSprite x y rows s) :=
  (keeps_setFb s _).trans_or (keeps_setFlag _ _)

/-- Every instruction that completes makes an update it may make and ends with an action it may return and its own
indication. -/
theorem exec_updates (h : exec i s = .next t) :
    ∃ u a, t = u.finish a (indicates i) ∧ Updates i s u ∧ MayReturn i s a := by
  have e := exec_next h
  cases i
  case cls =>
    exact ⟨_, _, e, ⟨keeps_setFb s _, .inl rfl⟩, rfl⟩
  case ret =>
    obtain ⟨hsp, e⟩ := e
    exact ⟨_, _, e, ⟨keeps_pop s, .inl rfl⟩, hsp, rfl⟩
  case callAddr nnn =>
    obtain ⟨hsp, e⟩ := e
    have hk := keeps_push s s.pc ⟨s.sp.toNat, hsp⟩ rfl
    exact ⟨_, _, e, ⟨hk.mono fun _ => .imp_left fun hp => ⟨_, hp⟩, .inl rfl⟩, rfl⟩
  case jpAddr | jpV0Addr =>
    exact ⟨_, _, e, ⟨keepsAllBut_refl _ s, .inl rfl⟩, rfl⟩
  case seVxByte | seVxVy | skpVx =>
    exact ⟨_, _, e, ⟨keepsAllBut_refl _ s, .inl rfl⟩, (ite_eq_or_eq _ _ _).symm⟩
  case sneVxByte | sneVxVy | sknpVx =>
    exact ⟨_, _, e, ⟨keepsAllBut_refl _ s, .inl rfl⟩, ite_eq_or_eq _ _ _⟩
  case ldVxK x =>
    rcases e with ⟨k, -, -, e⟩ | ⟨-, e⟩
    · exact ⟨_, _, e, ⟨keeps_setReg s x _, .inl rfl⟩, .inl rfl⟩
    · exact ⟨_, _, e, ⟨keepsAllBut_refl _ s, .inl rfl⟩, .inr rfl⟩
  case addVxVy | subVxVy | subnVxVy | shrVxVy | shlVxVy =>
    exact ⟨_, _, e, ⟨(keeps_setReg s _ _).trans_or (keeps_setFlag _ _), .inl rfl⟩, rfl⟩
  case rndVxByte =>
    exact ⟨_, _, e, ⟨(keeps_afterDraw s).trans_or (keeps_setReg _ _ _), .inl rfl⟩, rfl⟩
  case drwVxVyNibble =>
    obtain ⟨-, e⟩ := e
    exact ⟨_, _, e, ⟨keeps_drawSprite _ _ _ s, .inl rfl⟩, rfl⟩
  case ldIAddr | addIVx | ldFVx =>
    exact ⟨_, _, e, ⟨keeps_setI s _, .inl rfl⟩, rfl⟩
  case ldDTVx =>
    exact ⟨_, _, e, ⟨keeps_setDT s _, .inl rfl⟩, rfl⟩
  case ldSTVx =>
    exact ⟨_, _, e, ⟨keeps_setST s _, .inl rfl⟩, rfl⟩
  case ldBVx x =>
    obtain ⟨hi, e⟩ := e
    have hk := keeps_setBytes s s.i.toNat (bcdDigits (s.reg x))
    exact ⟨_, _, e, ⟨hk.mono fun _ ⟨a, _, _, hp⟩ => ⟨a, hp⟩, .inr ⟨bcdDigits (s.reg x), hi, rfl⟩⟩, rfl⟩
  case ldMemVx x =>
    obtain ⟨hi, e⟩ := e
    rw [← length_dumpBytes s x] at hi
    have hk := keeps_setBytes s s.i.toNat (dumpBytes s x)
    exact ⟨_, _, e, ⟨hk.mono fun _ ⟨a, _, _, hp⟩ => ⟨a, hp⟩, .inr ⟨_, hi, rfl⟩⟩, rfl⟩
  case ldVxMem x =>
    obtain ⟨-, e⟩ := e
    refine ⟨_, _, e, ⟨(keeps_loadRegs s _).mono fun _ ⟨r, hr, hp⟩ => ⟨r, ?_, hp⟩, .inl rfl⟩, rfl⟩
    rw [List.length_map, List.length_range] at hr
    omega
  case ldVxByte | addVxByte | ldVxVy | orVxVy | andVxVy | xorVxVy | ldVxDT =>
    exact ⟨_, _, e, ⟨keeps_setReg s _ _, .inl rfl⟩, rfl⟩

/-! ### What follows for the parts one by one -/

/-- The frame of any instruction. -/
theorem exec_frame (h : exec i s = .next t) : KeepsAllBut (fun p => MayWrite i p ∨ p.sequencing) s t := by
  obtain ⟨u, a, rfl, hu, -⟩ := exec_updates h
  exact keeps_complete hu.frame a _

/-- A part that an instruction may not write is kept, if it is neither `PC` nor the indication. -/
theorem exec_keeps {p : Part} (h : exec i s = .next t) (hp : ¬ MayWrite i p)
    (hq : ¬ p.sequencing := by simp [Part.sequencing]) : p.same s t :=
  exec_frame h p fun hw => hw.elim hp hq

/-- The indication an instruction returns is its own, whatever the state (R133). -/
theorem exec_redraw (h : exec i s = .next t) : t.redraw = indicates i := by
  obtain ⟨u, a, rfl, -⟩ := exec_updates h
  rfl

/-- `PC` after an instruction is that of an action it may return, from the `PC` before it (R75). -/
theorem exec_pc (h : exec i s = .next t) : ∃ a, MayReturn i s a ∧ t.pc = pcAfter s.pc a := by
  obtain ⟨u, a, rfl, hu, ha⟩ := exec_updates h
  have hpc : u.pc = s.pc := hu.frame .pc (by cases i <;> simp [MayWrite])
  exact ⟨a, ha, by rw [State.finish_pc, hpc]⟩

end Sys2Proof.Machine

/-! SUPPORT. The state of the machine (10_state.md): the legal states are kept, the indication is an output, and who writes
each part of the state. -/

namespace Sys2Proof.Machine

-- One theorem after another: many at once ask for more threads than a memory limit of the check allows.
set_option Elab.async false

variable {s t : State} {i : Instr}

/-! ### Who may write each part, read off the table -/

theorem mayWrite_i : MayWrite i .i ↔ (∃ nnn, i = .ldIAddr nnn) ∨ (∃ x, i = .addIVx x) ∨ ∃ x, i = .ldFVx x := by
  cases i <;> simp [MayWrite]

theorem mayWrite_sp : MayWrite i .sp ↔ i = .ret ∨ ∃ nnn, i = .callAddr nnn := by
  cases i <;> simp [MayWrite]

theorem mayWrite_stackEntry {k : Fin 16} : MayWrite i (.stackEntry k) ↔ ∃ nnn, i = .callAddr nnn := by
  cases i <;> simp [MayWrite]

theorem mayWrite_dt : MayWrite i .dt ↔ ∃ x, i = .ldDTVx x := by
  cases i <;> simp [MayWrite]

theorem mayWrite_accDT : MayWrite i .accDT ↔ ∃ x, i = .ldDTVx x := by
  cases i <;> simp [MayWrite]

theorem mayWrite_st : MayWrite i .st ↔ ∃ x, i = .ldSTVx x := by
  cases i <;> simp [MayWrite]

theorem mayWrite_accST : MayWrite i .accST ↔ ∃ x, i = .ldSTVx x := by
  cases i <;> simp [MayWrite]

theorem mayWrite_byte {a : Nat} : MayWrite i (.byte a) ↔ (∃ x, i = .ldBVx x) ∨ ∃ x, i = .ldMemVx x := by
  cases i <;> simp [MayWrite]

theorem mayWrite_pixel {x : Fin 64} {y : Fin 32} :
    MayWrite i (.pixel x y) ↔ i = .cls ∨ ∃ x y n, i = .drwVxVyNibble x y n := by
  cases i <;> simp [MayWrite]

theorem mayWrite_rng : MayWrite i .rng ↔ ∃ x nn, i = .rndVxByte x nn := by
  cases i <;> simp [MayWrite]

theorem indicates_iff : indicates i = true ↔ i = .cls ∨ ∃ x y n, i = .drwVxVyNibble x y n := by
  cases i <;> simp [indicates]

/-! ### The legal states -/

/-- The occupied entry on top of the stack of a legal state is the address of a CALL (R26, R86). -/
theorem State.Inv.stackTop_le (hs : s.Inv) (hsp : s.sp ≠ 0) : s.stackTop.toNat ≤ 0xFFE := by
  have hpos : s.sp.toNat ≠ 0 := fun e => hsp (BitVec.eq_of_toNat_eq e)
  have hle : s.sp.toNat ≤ 16 := hs.spBound
  rw [stackTop_of_occupied s ⟨s.sp.toNat - 1, by omega⟩ (show s.sp.toNat = s.sp.toNat - 1 + 1 by omega)]
  exact hs.callers _

theorem toNat_zext16_lt {n : Nat} (b : BitVec n) : (zext16 b).toNat < 2 ^ n := by
  rw [BitVec.toNat_setWidth]
  exact (Nat.mod_le _ _).trans_lt b.isLt

theorem indirectTarget_le (s : State) (nnn : Addr) : (indirectTarget s nnn).toNat ≤ 0x10FE := by
  have hn := toNat_zext16_lt nnn
  have hv := toNat_zext16_lt (s.reg 0)
  rw [indirectTarget, BitVec.toNat_add]
  omega

/-- No jump from a legal state goes past `0x10FE` (R85, R86, R87, R92). -/
theorem jump_le {w : Word} (hs : s.Inv) (h : MayReturn i s (.jump w)) : w.toNat ≤ 0x10FE := by
  cases i <;> simp only [MayReturn, reduceCtorEq, or_self, PcAction.jump.injEq] at h
  case jpAddr nnn | callAddr nnn =>
    rw [h]
    exact (toNat_zext16_lt nnn).le.trans (by decide)
  case jpV0Addr nnn =>
    rw [h]
    exact indirectTarget_le s nnn
  case ret =>
    obtain ⟨hsp, rfl⟩ := h
    have := hs.stackTop_le hsp
    rw [BitVec.toNat_add, show (2 : Word).toNat = 2 from rfl]
    omega

/-- `PC` after the action that a fetched instruction returns (R75). -/
theorem exec_pc_le (hs : s.Inv) (ha : s.About i) (h : exec i s = .next t) : t.pc.toNat ≤ 0x10FE := by
  have hpc : s.pc.toNat + 2 ≤ 4096 := ha.1
  obtain ⟨a, hr, e⟩ := exec_pc h
  rw [e]
  cases a with
  | jump w => exact jump_le hs hr
  | again => exact hs.pcBound
  | next | skip =>
    simp only [pcAfter, Config.instrWidth, BitVec.toNat_add, BitVec.toNat_ofNat]
    omega

/-- Only a CALL writes a stack entry, and what it writes is its own address (R86). -/
theorem exec_callers_le (hs : s.Inv) (ha : s.About i) (h : exec i s = .next t) (k : Fin 16) :
    t.stack[k].toNat ≤ 0xFFE := by
  have hpc : s.pc.toNat + 2 ≤ 4096 := ha.1
  by_cases hw : MayWrite i (.stackEntry k)
  · obtain ⟨nnn, rfl⟩ := mayWrite_stackEntry.1 hw
    obtain ⟨-, rfl⟩ := exec_next h
    rw [State.finish_stack, getElem_push]
    split_ifs
    · omega
    · exact hs.callers k
  · rw [show t.stack[k] = s.stack[k] from exec_keeps h hw]
    exact hs.callers k

/-- `SP` stays within the stack: a CALL completes only below `STACK_DEPTH`, a RET only above 0 (R25, R86, R87). -/
theorem exec_sp_le (hs : s.Inv) (h : exec i s = .next t) : t.sp.toNat ≤ 16 := by
  have hsp : s.sp.toNat ≤ 16 := hs.spBound
  by_cases hw : MayWrite i .sp
  · rcases mayWrite_sp.1 hw with rfl | ⟨nnn, rfl⟩
    · obtain ⟨hne, rfl⟩ := exec_next h
      rw [State.finish_sp, State.pop_sp]
      bv_omega
    · obtain ⟨hlt, rfl⟩ := exec_next h
      rw [State.finish_sp, State.push_sp]
      bv_omega
  · rw [show t.sp = s.sp from exec_keeps h hw]
    exact hsp

/-- An instruction keeps the canonical form of memory: a store writes below `MEM_SIZE` or faults (R40, R43). -/
theorem exec_memory_wf (h : exec i s = .next t) (hm : Memory.wf s.cfg.glyphs s.mem = true) :
    Memory.wf t.cfg.glyphs t.mem = true := by
  obtain ⟨-, -, hcfg⟩ := exec_keeps_host_state h
  obtain ⟨u, a, rfl, ⟨-, hu⟩, -⟩ := exec_updates h
  rw [hcfg, State.finish_mem]
  rcases hu with e | ⟨bytes, hb, e⟩ <;> rw [e]
  · exact hm
  · exact Memory.wf_writeBytes _ bytes s.mem _ hb hm

/-- Setting a timer clears its accumulator, and no other instruction touches it (R29, R150). -/
theorem exec_accDT_nonneg (h : exec i s = .next t) (hs : 0 ≤ s.accDT) : 0 ≤ t.accDT := by
  by_cases hw : MayWrite i .accDT
  · obtain ⟨x, rfl⟩ := mayWrite_accDT.1 hw
    obtain rfl := exec_next h
    exact le_rfl
  · rw [show t.accDT = s.accDT from exec_keeps h hw]
    exact hs

/-- The same of the sound timer (R29, R151). -/
theorem exec_accST_nonneg (h : exec i s = .next t) (hs : 0 ≤ s.accST) : 0 ≤ t.accST := by
  by_cases hw : MayWrite i .accST
  · obtain ⟨x, rfl⟩ := mayWrite_accST.1 hw
    obtain rfl := exec_next h
    exact le_rfl
  · rw [show t.accST = s.accST from exec_keeps h hw]
    exact hs

theorem secondsPerCycle_nonneg (cfg : Configuration) : 0 ≤ secondsPerCycle cfg := by
  unfold secondsPerCycle
  positivity

/-- Settles O14: the instruction keeps the bounds on `PC`, `SP`, the stack and memory and leaves both accumulators
non-negative; from there the decay of the same cycle makes both timers legal (R146), and its end lowers the indication (R81). -/
theorem stepKeepsLegal : Obligations.StepKeepsLegal := by
  unfold Obligations.StepKeepsLegal
  intro s t hs h
  obtain ⟨i, u, ha, hx, rfl⟩ := step_next h
  obtain ⟨-, hclock, hcfg⟩ := exec_keeps_host_state hx
  have hdt := secondsPerCycle_nonneg u.cfg
  have hpc := exec_pc_le hs ha hx
  have hcallers := exec_callers_le hs ha hx
  have hsp := exec_sp_le hs hx
  have hmem := exec_memory_wf hx hs.memory
  exact
    { pcBound := hpc
      callers := hcallers
      spBound := hsp
      memory := hmem
      rate := by rw [endCycle_cfg, hcfg]; exact hs.rate
      delay := decayOne_legal u.dt u.accDT _ (exec_accDT_nonneg hx hs.delay.nonneg) hdt
      sound := decayOne_legal u.st u.accST _ (exec_accST_nonneg hx hs.sound.nonneg) hdt
      clock := by rw [endCycle_clockAcc, hclock]; exact hs.clock
      quiet := endCycle_redraw u }

/-! ### The indication -/

/-- What `FX33` and `FX55` do does not depend on the field that carries the indication (log entry 5). -/
theorem storeAtI_withRedraw (bytes : List Byte) (s : State) (b : Bool) :
    storeAtI bytes (s.withRedraw b) = storeAtI bytes s := by
  rcases storeAtI_cases bytes s with ⟨h, e⟩ | ⟨h, e⟩ <;>
    rcases storeAtI_cases bytes (s.withRedraw b) with ⟨h', e'⟩ | ⟨h', e'⟩
  · exact e'.trans e.symm
  · exact absurd h (not_lt.2 h')
  · exact absurd h' (not_lt.2 h)
  · exact e'.trans e.symm

theorem exec_withRedraw (i : Instr) (s : State) (b : Bool) : exec i (s.withRedraw b) = exec i s := by
  cases i
  case ldBVx x => exact storeAtI_withRedraw _ s b
  case ldMemVx x => exact storeAtI_withRedraw _ s b
  all_goals rfl

/-- Settles O11: the result takes the indication from the instruction, the end of the cycle lowers the field, and `exec`
overwrites it without reading it. -/
theorem redrawIsAnOutput : Obligations.RedrawIsAnOutput := by
  unfold Obligations.RedrawIsAnOutput
  constructor
  · intro s t r h
    obtain ⟨i, u, ha, hx, rfl, rfl⟩ := cycle_ok h
    refine ⟨endCycle_redraw u, i, u, ha, hx, rfl, ?_⟩
    rw [exec_redraw hx, indicates_iff]
  · intro s b
    have hf : fetch (s.withRedraw b) = fetch s := rfl
    simp only [cycle, hf, exec_withRedraw, State.withRedraw_pc]

/-! ### Writers of each part -/

theorem exec_keeps_stack (h : exec i s = .next t) (hi : ∀ nnn, i ≠ .callAddr nnn) : t.stack = s.stack :=
  Vector.ext fun k hk => exec_keeps (p := .stackEntry ⟨k, hk⟩) h (by simpa [mayWrite_stackEntry] using hi)

theorem exec_keeps_fb (h : exec i s = .next t) (hi : indicates i = false) : t.fb = s.fb :=
  Framebuffer.ext_get fun x y =>
    exec_keeps (p := .pixel x y) h (by rw [mayWrite_pixel, ← indicates_iff, hi]; decide)

/-- Settles O20: each clause is the frame of the instruction at one part. -/
theorem writersOfEachPart : Obligations.WritersOfEachPart := by
  unfold Obligations.WritersOfEachPart
  intro i s t h
  refine ⟨fun r => ?reg, fun hi => ?i, ?pc, fun hi => ⟨?sp, ?stack⟩, fun hi => ⟨?dt, ?accDT⟩, fun hi => ⟨?st, ?accST⟩,
    fun hi a => ?byte, fun hi => ?display, fun hi => ?rng, exec_keeps_host_state h⟩
  case reg =>
    by_cases hw : MayWrite i (.reg r)
    · right
      revert hw
      cases i <;> simp [MayWrite]
    · exact .inl (exec_keeps h hw)
  case i =>
    refine exec_keeps (p := .i) h fun hw => ?_
    rcases mayWrite_i.1 hw with ⟨nnn, rfl⟩ | ⟨x, rfl⟩ | ⟨x, rfl⟩
    · exact (hi nnn 0).1 rfl
    · exact (hi 0 x).2.1 rfl
    · exact (hi 0 x).2.2 rfl
  case pc =>
    obtain ⟨a, ha, e⟩ := exec_pc h
    cases i
    case jpAddr | jpV0Addr | callAddr | ret | seVxByte | sneVxByte | seVxVy | sneVxVy | skpVx | sknpVx | ldVxK => trivial
    all_goals exact e.trans (congrArg _ ha)
  case sp => exact exec_keeps (p := .sp) h (by simpa [mayWrite_sp] using hi)
  case stack => exact exec_keeps_stack h hi.2
  case dt => exact exec_keeps (p := .dt) h (by simpa [mayWrite_dt] using hi)
  case accDT => exact exec_keeps (p := .accDT) h (by simpa [mayWrite_accDT] using hi)
  case st => exact exec_keeps (p := .st) h (by simpa [mayWrite_st] using hi)
  case accST => exact exec_keeps (p := .accST) h (by simpa [mayWrite_accST] using hi)
  case byte =>
    refine exec_keeps (p := .byte a) h fun hw => ?_
    rcases mayWrite_byte.1 hw with ⟨x, rfl⟩ | ⟨x, rfl⟩
    · exact (hi x).1 rfl
    · exact (hi x).2 rfl
  case display =>
    have hq : indicates i = false := by
      rw [← Bool.not_eq_true, indicates_iff]
      simpa using hi
    exact ⟨exec_keeps_fb h hq, (exec_redraw h).trans hq⟩
  case rng => exact exec_keeps (p := .rng) h (by simpa [mayWrite_rng] using hi)

/-! ### The flag -/

/-- `VF` is 0 or 1 after an instruction that ends by writing the flag (R22). -/
theorem reg_setFlag_finish (s : State) (f : Bool) (a : PcAction) (r : Bool) :
    ((s.setFlag f).finish a r).reg regVF = 0 ∨ ((s.setFlag f).finish a r).reg regVF = 1 := by
  rw [reg_of_v (State.finish_v (s.setFlag f) a r), reg_setFlag, if_pos rfl]
  cases f
  · exact .inl rfl
  · exact .inr rfl

/-- Settles O27: the flag writers end by writing the flag, and for any other instruction `VF` is a part like the others. -/
theorem flagWrittenOnlyByFlagWriters : Obligations.FlagWrittenOnlyByFlagWriters := by
  unfold Obligations.FlagWrittenOnlyByFlagWriters
  intro i s t h
  have kept (hw : ¬ MayWrite i (.reg regVF)) : t.reg regVF = s.reg regVF := exec_keeps h hw
  cases i
  case addVxVy | subVxVy | subnVxVy | shrVxVy | shlVxVy =>
    obtain rfl := exec_next h
    exact reg_setFlag_finish _ _ _ _
  case drwVxVyNibble =>
    obtain ⟨-, rfl⟩ := exec_next h
    exact reg_setFlag_finish _ _ _ _
  case ldVxByte | addVxByte | ldVxVy | orVxVy | andVxVy | xorVxVy | rndVxByte | ldVxDT | ldVxK =>
    exact fun hx => kept (by simpa [MayWrite] using hx.symm)
  case ldVxMem x =>
    refine fun hx => kept ?_
    rintro ⟨r, hr, he⟩
    cases he
    exact hx (Fin.le_antisymm (Fin.le_last x) hr)
  all_goals
    exact kept (by simp [MayWrite])

end Sys2Proof.Machine

/-! SUPPORT. Memory (20_memory.md): the round trip over all instructions, what a cycle stores, and what the next fetch sees
of it. -/

namespace Sys2Proof

/-- Decoding inverts encoding, assembled from the lemmas of the single instructions. -/
theorem decode_encode (i : Instr) : decode (encode i) = .ok i :=
  match i with
  | .cls => Laws.RoundTrip.cls
  | .ret => Laws.RoundTrip.ret
  | .jpAddr nnn => Laws.RoundTrip.jpAddr nnn
  | .callAddr nnn => Laws.RoundTrip.callAddr nnn
  | .seVxByte x nn => Laws.RoundTrip.seVxByte x nn
  | .sneVxByte x nn => Laws.RoundTrip.sneVxByte x nn
  | .seVxVy x y => Laws.RoundTrip.seVxVy x y
  | .ldVxByte x nn => Laws.RoundTrip.ldVxByte x nn
  | .addVxByte x nn => Laws.RoundTrip.addVxByte x nn
  | .ldVxVy x y => Laws.RoundTrip.ldVxVy x y
  | .orVxVy x y => Laws.RoundTrip.orVxVy x y
  | .andVxVy x y => Laws.RoundTrip.andVxVy x y
  | .xorVxVy x y => Laws.RoundTrip.xorVxVy x y
  | .addVxVy x y => Laws.RoundTrip.addVxVy x y
  | .subVxVy x y => Laws.RoundTrip.subVxVy x y
  | .shrVxVy x y => Laws.RoundTrip.shrVxVy x y
  | .subnVxVy x y => Laws.RoundTrip.subnVxVy x y
  | .shlVxVy x y => Laws.RoundTrip.shlVxVy x y
  | .sneVxVy x y => Laws.RoundTrip.sneVxVy x y
  | .ldIAddr nnn => Laws.RoundTrip.ldIAddr nnn
  | .jpV0Addr nnn => Laws.RoundTrip.jpV0Addr nnn
  | .rndVxByte x nn => Laws.RoundTrip.rndVxByte x nn
  | .drwVxVyNibble x y n => Laws.RoundTrip.drwVxVyNibble x y n
  | .skpVx x => Laws.RoundTrip.skpVx x
  | .sknpVx x => Laws.RoundTrip.sknpVx x
  | .ldVxDT x => Laws.RoundTrip.ldVxDT x
  | .ldVxK x => Laws.RoundTrip.ldVxK x
  | .ldDTVx x => Laws.RoundTrip.ldDTVx x
  | .ldSTVx x => Laws.RoundTrip.ldSTVx x
  | .addIVx x => Laws.RoundTrip.addIVx x
  | .ldFVx x => Laws.RoundTrip.ldFVx x
  | .ldBVx x => Laws.RoundTrip.ldBVx x
  | .ldMemVx x => Laws.RoundTrip.ldMemVx x
  | .ldVxMem x => Laws.RoundTrip.ldVxMem x

end Sys2Proof

namespace Sys2Proof.Machine

variable {s t : State}

/-! ### A byte after a store -/

theorem byteAt_setBytes_of_getElem? {bytes : List Byte} {j : Nat} {b : Byte} (addr : Nat) (h : bytes[j]? = some b) :
    (s.setBytes addr bytes).byteAt (addr + j) = b := by
  obtain ⟨hj, -⟩ := List.getElem?_eq_some_iff.1 h
  rw [byteAt_setBytes, if_pos (by omega), Nat.add_sub_cancel_left, List.getD_eq_getElem?_getD, h]
  rfl

theorem byteAt_setBytes_outside {bytes : List Byte} {addr c : Nat} (h : c < addr ∨ addr + bytes.length ≤ c) :
    (s.setBytes addr bytes).byteAt c = s.byteAt c := by
  rw [byteAt_setBytes, if_neg (by omega)]

/-- Settles O17: each clause is one of the two cases of the access primitive, and a store has its frame. -/
theorem memoryAccessContract : Obligations.MemoryAccessContract := by
  unfold Obligations.MemoryAccessContract
  intro s addr
  refine ⟨fun n h => ?readFault, fun n h => ?read, fun bytes h => ?writeFault, fun bytes h => ?write⟩
  case readFault =>
    rcases memRead_cases s addr n with ⟨-, e⟩ | ⟨h', -⟩
    · exact e
    · exact absurd h (not_lt.2 h')
  case read =>
    rcases memRead_cases s addr n with ⟨h', -⟩ | ⟨-, e⟩
    · exact absurd h' (not_lt.2 h)
    · exact ⟨_, e, by simp, fun j hj => by simp [hj]⟩
  case writeFault =>
    rcases memWrite_cases s addr bytes with ⟨-, e⟩ | ⟨h', -⟩
    · exact e
    · exact absurd h (not_lt.2 h')
  case write =>
    rcases memWrite_cases s addr bytes with ⟨h', -⟩ | ⟨-, e⟩
    · exact absurd h' (not_lt.2 h)
    · refine ⟨_, e, fun j hj => ?_, keeps_setBytes s addr bytes⟩
      have hb := List.getElem?_eq_getElem hj
      rw [byteAt_setBytes_of_getElem? addr hb, hb]

/-! ### The canonical form -/

/-- The first entry of a canonical list is the one found at its address, and every later address is above it, so the lookups
determine the list entry by entry. -/
theorem Memory.eq_of_find? (g : Glyphs) (m m' : Memory) (lo lo' : Nat) (hm : wfFrom g lo m = true)
    (hm' : wfFrom g lo' m' = true) (h : ∀ a, find? m a = find? m' a) : m = m' := by
  induction m generalizing lo lo' m' with
  | nil =>
    cases m' with
    | nil => rfl
    | cons e m' => simpa [find?] using h e.1
  | cons e m ih =>
    cases m' with
    | nil => simpa [find?] using h e.1
    | cons e' m' =>
      obtain ⟨a, b⟩ := e
      obtain ⟨a', b'⟩ := e'
      obtain ⟨-, -, -, hr⟩ := (wfFrom_cons ..).1 hm
      obtain ⟨-, -, -, hr'⟩ := (wfFrom_cons ..).1 hm'
      have above {c : Nat} (hc : c ≤ a) : find? m c = none := find?_of_lt g m (a + 1) c hr (by omega)
      have above' {c : Nat} (hc : c ≤ a') : find? m' c = none := find?_of_lt g m' (a' + 1) c hr' (by omega)
      have ha := h a
      have ha' := h a'
      obtain rfl : a = a' := by
        rcases lt_trichotomy a a' with hlt | heq | hgt
        · simp [find?, above' hlt.le, hlt.ne'] at ha
        · exact heq
        · simp [find?, above hgt.le, hgt.ne'] at ha'
      obtain rfl : b = b' := by simpa [find?] using ha
      rw [ih m' (a + 1) (a + 1) hr hr' fun c => ?_]
      by_cases hc : c ≤ a
      · rw [above hc, above' hc]
      · have hne : a ≠ c := by omega
        simpa [find?, hne] using h c

/-- Settles O18: what is read determines what is listed, and that the list. -/
theorem canonicalMemoryUnique : Obligations.CanonicalMemoryUnique := by
  unfold Obligations.CanonicalMemoryUnique
  intro g m m' hm hm' h
  exact Memory.eq_of_find? g m m' 0 0 hm hm' (Memory.find?_of_read g m m' hm hm' h)

/-! ### A word placed at `PC` -/

theorem withFetchWord_of_le (w : Word) (h : s.pc.toNat + 2 ≤ 4096) :
    s.withFetchWord 16 w.toNat = s.setBytes s.pc.toNat (bytesOfWord w) := by
  have hpc : ¬ s.pc.toNat + Config.instrWidth > Config.memSize := not_lt.2 h
  rw [State.withFetchWord, if_neg hpc, Nat.mod_eq_of_lt w.isLt, BitVec.ofNat_toNat, BitVec.setWidth_eq]

theorem wordAtPc_setBytes (w : Word) : (s.setBytes s.pc.toNat (bytesOfWord w)).wordAtPc = w := by
  have hi := byteAt_setBytes_of_getElem? (s := s) (bytes := bytesOfWord w) (j := 0) s.pc.toNat rfl
  have lo := byteAt_setBytes_of_getElem? (s := s) (bytes := bytesOfWord w) (j := 1) s.pc.toNat rfl
  rw [State.wordAtPc, State.setBytes_pc, lo]
  exact (congrArg (wordOfBytes · _) hi).trans (wordOfBytes_bytes w)

/-- The word at `PC` has the byte at `PC` as bits 15..8 and the byte at `PC + 1` as bits 7..0 (R45). -/
theorem wordAtPc_bytes (s : State) :
    (s.byteAt s.pc.toNat).toNat = s.wordAtPc.toNat / 256 ∧
    (s.byteAt (s.pc.toNat + 1)).toNat = s.wordAtPc.toNat % 256 := by
  rw [State.wordAtPc, wordOfBytes_toNat]
  omega

/-- Settles O7: the word is stored at `PC`, read back from there, and decodes to what it encodes. -/
theorem storedWordIsRun : Obligations.StoredWordIsRun := by
  unfold Obligations.StoredWordIsRun
  intro s i h
  have hw := wordAtPc_setBytes (s := s) (encode i)
  obtain ⟨hi, lo⟩ := wordAtPc_bytes (s.setBytes s.pc.toNat (bytesOfWord (encode i)))
  rw [hw] at hi lo
  rw [withFetchWord_of_le _ h]
  refine ⟨?table, ⟨h, ?decodes⟩, hi, lo, keeps_setBytes s _ (bytesOfWord (encode i))⟩
  case table => rw [decodeTableWord_eq, decode_encode]
  case decodes => rw [hw, decode_encode]

/-! ### What the next fetch sees of a store -/

/-- `PC` points at one instruction. -/
theorem State.About.unique {i j : Instr} (h : s.About i) (h' : s.About j) : i = j :=
  Except.ok.inj (h.2.symm.trans h'.2)

theorem exec_of_step {i : Instr} (ha : s.About i) (h : step s = .next t) :
    ∃ u, exec i s = .next u ∧ t = endCycle u := by
  obtain ⟨j, u, hj, hx, e⟩ := step_next h
  obtain rfl := ha.unique hj
  exact ⟨u, hx, e⟩

/-- After a cycle that ran `FX55`, memory is the old one with the registers stored at `I` (R119). -/
theorem byteAt_of_step_ldMemVx {x : RegIdx} (ha : s.About (.ldMemVx x)) (h : step s = .next t) (a : Nat) :
    t.byteAt a = (s.setBytes s.i.toNat (dumpBytes s x)).byteAt a := by
  obtain ⟨u, hx, rfl⟩ := exec_of_step ha h
  obtain ⟨-, rfl⟩ := exec_next hx
  rfl

/-- After a cycle that ran `FX33`, memory is the old one with the digits stored at `I` (R118). -/
theorem byteAt_of_step_ldBVx {x : RegIdx} (ha : s.About (.ldBVx x)) (h : step s = .next t) (a : Nat) :
    t.byteAt a = (s.setBytes s.i.toNat (bcdDigits (s.reg x))).byteAt a := by
  obtain ⟨u, hx, rfl⟩ := exec_of_step ha h
  obtain ⟨-, rfl⟩ := exec_next hx
  rfl

theorem getElem?_dumpBytes {x j : RegIdx} (h : j.val ≤ x.val) : (dumpBytes s x)[j.val]? = some (s.reg j) := by
  have hl : j.val < (dumpBytes s x).length := by
    rw [length_dumpBytes]
    omega
  rw [← getD_dumpBytes s x j h, List.getD_eq_getElem _ _ hl, List.getElem?_eq_getElem hl]

/-- Settles O19: the next fetch reads the two bytes at `PC` from the memory the cycle left, which is the old one with the
bytes of `FX55` or `FX33` stored at `I`. -/
theorem storeSeenByNextFetch : Obligations.StoreSeenByNextFetch := by
  unfold Obligations.StoreSeenByNextFetch
  intro s t x h hpc
  rcases fetch_cases t with ⟨h', -⟩ | ⟨-, hf⟩
  · exact absurd hpc (not_le.2 h')
  refine ⟨t.wordAtPc, hf, ?_⟩
  intro k hk a fetched
  have hbyte : fetched = (t.byteAt a).toNat := by
    obtain ⟨hi, lo⟩ := wordAtPc_bytes t
    obtain rfl | rfl : k = 0 ∨ k = 1 := by omega
    · exact hi.symm
    · exact lo.symm
  rw [hbyte]
  refine ⟨fun ha => ?dump, fun ha => ?digits⟩
  case dump =>
    rw [byteAt_of_step_ldMemVx ha h]
    refine ⟨fun j hj e => ?_, fun ho => ?_⟩
    · rw [e, byteAt_setBytes_of_getElem? _ (getElem?_dumpBytes hj)]
    · rw [byteAt_setBytes_outside (by rw [length_dumpBytes]; omega)]
  case digits =>
    rw [byteAt_of_step_ldBVx ha h]
    have hb : (s.reg x).toNat < 256 := (s.reg x).isLt
    have stored {j n : Nat} (hj : (bcdDigits (s.reg x))[j]? = some (BitVec.ofNat 8 n)) (hn : n < 256)
        (e : a = s.i.toNat + j) : ((s.setBytes s.i.toNat (bcdDigits (s.reg x))).byteAt a).toNat = n := by
      rw [e, byteAt_setBytes_of_getElem? _ hj, BitVec.toNat_ofNat, Nat.mod_eq_of_lt hn]
    refine ⟨stored (j := 0) rfl (by omega), stored (j := 1) rfl (by omega), stored (j := 2) rfl (by omega), fun ho => ?_⟩
    have hl : (bcdDigits (s.reg x)).length = 3 := rfl
    rw [byteAt_setBytes_outside (by omega)]

end Sys2Proof.Machine

/-! SUPPORT. Encoding (30_encoding.md): what each family of the decoder accepts and refuses, the round trip over words, and
the rows of the opcode table. -/

namespace Sys2Proof

-- One theorem after another: many at once ask for more threads than a memory limit of the check allows.
set_option Elab.async false

/-! ### From instruction to word and back -/

/-- The types of the operands carry their bounds (R57). -/
theorem Instr.wellFormed_eq_true (i : Instr) : i.wellFormed = true := by
  cases i <;> simp only [Instr.wellFormed, Bool.and_eq_true, decide_eq_true_eq] <;> omega

/-- Settles O1: the bounds are those of the types, and the round trip is that of each instruction. -/
theorem decodeOfEncode : Obligations.DecodeOfEncode := by
  unfold Obligations.DecodeOfEncode
  exact fun i => ⟨i.wellFormed_eq_true, decode_encode i⟩

/-! ### From word to instruction and back, by family -/

variable {w : Word} {i : Instr}

theorem encode_of_decode0 (h : decode0 w = .ok i) : encode i = w := by
  unfold decode0 at h
  split_ifs at h with h₁ h₂ <;> cases h
  · exact h₁.symm
  · exact h₂.symm

theorem encode_of_decode8 (hop : (fieldOp w).val = 8) (h : decode8 w = .ok i) : encode i = w := by
  unfold decode8 at h
  dsimp only at h
  split at h <;> cases h
  all_goals exact formatRR_of_fields w 8 _ hop ‹_›

/-- A word of format `R`, whose bottom byte is the sub-opcode. -/
theorem formatRI_of_fieldNN {o : BitVec 4} {nn : Byte} (hop : (fieldOp w).val = o.toNat) (hnn : fieldNN w = nn) :
    formatRI o (fieldX w) nn = w := by
  rw [← hnn, formatRI_of_fields w o hop]

theorem encode_of_decodeE (hop : (fieldOp w).val = 14) (h : decodeE w = .ok i) : encode i = w := by
  unfold decodeE at h
  split_ifs at h <;> cases h
  all_goals exact formatRI_of_fieldNN hop ‹_›

theorem encode_of_decodeF (hop : (fieldOp w).val = 15) (h : decodeF w = .ok i) : encode i = w := by
  unfold decodeF at h
  dsimp only at h
  split_ifs at h <;> cases h
  all_goals exact formatRI_of_fieldNN hop ‹_›

theorem encode_of_decode (h : decode w = .ok i) : encode i = w := by
  unfold decode at h
  dsimp only at h
  split at h
  -- The arm `h_k` is that of family `k - 1`.
  case h_1 => exact encode_of_decode0 h
  case h_9 hop => exact encode_of_decode8 hop h
  case h_15 hop => exact encode_of_decodeE hop h
  case h_16 =>
    simp only [imp_false] at *
    exact encode_of_decodeF (by omega) h
  case h_6 hop | h_10 hop =>
    split_ifs at h with hn
    cases h
    exact formatRR_of_fields w _ 0 hop hn
  all_goals cases h
  case h_2 hop | h_3 hop | h_11 hop | h_12 hop => exact formatA_of_fields w _ hop
  case h_14 hop => exact formatRR_of_fields w _ _ hop rfl
  all_goals exact formatRI_of_fields w _ ‹_›

/-- Settles O2: each arm of the decoder takes the fields that the format of its instruction puts together again. -/
theorem encodeOfDecode : Obligations.EncodeOfDecode := by
  unfold Obligations.EncodeOfDecode
  exact fun w i h => encode_of_decode h

/-! ### The words each family refuses (R63, R64) -/

theorem decode0_eq_error_iff : decode0 w = .error (.invalidOpcode w) ↔ w ≠ 0x00E0 ∧ w ≠ 0x00EE := by
  unfold decode0
  split_ifs <;> simp_all

theorem decode8_eq_error_iff :
    decode8 w = .error (.invalidOpcode w) ↔ (fieldN w).val ∈ [0x8, 0x9, 0xA, 0xB, 0xC, 0xD, 0xF] := by
  unfold decode8
  dsimp only
  split
  case h_10 =>
    simp only [imp_false, List.mem_cons, List.not_mem_nil, or_false, true_iff] at *
    omega
  all_goals simp [*]

theorem decodeE_eq_error_iff : decodeE w = .error (.invalidOpcode w) ↔ fieldNN w ∉ [0x9E, 0xA1] := by
  unfold decodeE
  split_ifs <;> simp_all

theorem decodeF_eq_error_iff :
    decodeF w = .error (.invalidOpcode w) ↔
      fieldNN w ∉ [0x07, 0x0A, 0x15, 0x18, 0x1E, 0x29, 0x33, 0x55, 0x65] := by
  unfold decodeF
  dsimp only
  split_ifs <;> simp_all

theorem decode_eq_error_iff :
    decode w = .error (.invalidOpcode w) ↔
      ((fieldOp w).val = 0x0 ∧ w ≠ 0x00E0 ∧ w ≠ 0x00EE) ∨
      ((fieldOp w).val = 0x5 ∧ (fieldN w).val ≠ 0) ∨
      ((fieldOp w).val = 0x8 ∧ (fieldN w).val ∈ [0x8, 0x9, 0xA, 0xB, 0xC, 0xD, 0xF]) ∨
      ((fieldOp w).val = 0x9 ∧ (fieldN w).val ≠ 0) ∨
      ((fieldOp w).val = 0xE ∧ fieldNN w ∉ [0x9E, 0xA1]) ∨
      ((fieldOp w).val = 0xF ∧ fieldNN w ∉ [0x07, 0x0A, 0x15, 0x18, 0x1E, 0x29, 0x33, 0x55, 0x65]) := by
  unfold decode
  dsimp only
  split
  case h_16 =>
    simp only [imp_false] at *
    have hop : (fieldOp w).val = 15 := by omega
    simp [hop, decodeF_eq_error_iff]
  all_goals simp [*, decode0_eq_error_iff, decode8_eq_error_iff, decodeE_eq_error_iff]

/-- Settles O3: the two verdicts are those of the decoder, and each family refuses the words that the table lists for it. -/
theorem invalidWordsByFamily : Obligations.InvalidWordsByFamily := by
  unfold Obligations.InvalidWordsByFamily
  intro w
  refine ⟨Machine.decode_cases w, ?_⟩
  rw [decode_eq_error_iff]
  simp only [List.mem_cons, List.not_mem_nil, or_false, ← BitVec.toNat_inj, fieldOp_val, fieldN_val, fieldNN_toNat]
  rfl

/-! ### The rows of the opcode table (R62) -/

/-! Every word is of format `A`, of format `RI` and of format `RR`. -/

theorem eq_formatA (w : Word) : w = formatA (.ofFin (fieldOp w)) (fieldNNN w) :=
  (formatA_of_fields w _ rfl).symm

theorem eq_formatRI (w : Word) : w = formatRI (.ofFin (fieldOp w)) (fieldX w) (fieldNN w) :=
  (formatRI_of_fields w _ rfl).symm

theorem eq_formatRR (w : Word) : w = formatRR (.ofFin (fieldOp w)) (fieldX w) (fieldY w) (.ofFin (fieldN w)) :=
  (formatRR_of_fields w _ _ rfl rfl).symm

/-- The mask `F000` keeps the family. -/
theorem fieldOp_of_and {o : BitVec 4} (h : w &&& 0xF000 = formatA o 0) : (fieldOp w).val = o.toNat := by
  rw [eq_formatA w, formatA_and] at h
  simpa using congrArg (fun v => (fieldOp v).val) h

/-- The mask `F00F` keeps the family and the bottom nibble. -/
theorem formatRR_of_and_sub {o k : BitVec 4} (h : w &&& 0xF00F = formatRR o 0 0 k) :
    formatRR o (fieldX w) (fieldY w) k = w := by
  rw [eq_formatRR w, formatRR_and_sub] at h
  have hop := congrArg (fun v => (fieldOp v).val) h
  have hn := congrArg (fun v => (fieldN v).val) h
  exact formatRR_of_fields w o k (by simpa using hop) (by simpa using hn)

/-- The mask `F0FF` keeps the family and the bottom byte. -/
theorem formatRI_of_and_sub {o : BitVec 4} {nn : Byte} (h : w &&& 0xF0FF = formatRI o 0 nn) :
    formatRI o (fieldX w) nn = w := by
  rw [eq_formatRI w, formatRI_and_sub] at h
  have hop := congrArg (fun v => (fieldOp v).val) h
  have hnn := congrArg fieldNN h
  exact formatRI_of_fieldNN (by simpa using hop) (by simpa using hnn)

/-- The instruction with its operands read from the fields of `w`. -/
def Instr.withFields (w : Word) : Instr → Instr
  | .cls => .cls
  | .ret => .ret
  | .jpAddr _ => .jpAddr (fieldNNN w)
  | .callAddr _ => .callAddr (fieldNNN w)
  | .seVxByte _ _ => .seVxByte (fieldX w) (fieldNN w)
  | .sneVxByte _ _ => .sneVxByte (fieldX w) (fieldNN w)
  | .seVxVy _ _ => .seVxVy (fieldX w) (fieldY w)
  | .ldVxByte _ _ => .ldVxByte (fieldX w) (fieldNN w)
  | .addVxByte _ _ => .addVxByte (fieldX w) (fieldNN w)
  | .ldVxVy _ _ => .ldVxVy (fieldX w) (fieldY w)
  | .orVxVy _ _ => .orVxVy (fieldX w) (fieldY w)
  | .andVxVy _ _ => .andVxVy (fieldX w) (fieldY w)
  | .xorVxVy _ _ => .xorVxVy (fieldX w) (fieldY w)
  | .addVxVy _ _ => .addVxVy (fieldX w) (fieldY w)
  | .subVxVy _ _ => .subVxVy (fieldX w) (fieldY w)
  | .shrVxVy _ _ => .shrVxVy (fieldX w) (fieldY w)
  | .subnVxVy _ _ => .subnVxVy (fieldX w) (fieldY w)
  | .shlVxVy _ _ => .shlVxVy (fieldX w) (fieldY w)
  | .sneVxVy _ _ => .sneVxVy (fieldX w) (fieldY w)
  | .ldIAddr _ => .ldIAddr (fieldNNN w)
  | .jpV0Addr _ => .jpV0Addr (fieldNNN w)
  | .rndVxByte _ _ => .rndVxByte (fieldX w) (fieldNN w)
  | .drwVxVyNibble _ _ _ => .drwVxVyNibble (fieldX w) (fieldY w) (fieldN w)
  | .skpVx _ => .skpVx (fieldX w)
  | .sknpVx _ => .sknpVx (fieldX w)
  | .ldVxDT _ => .ldVxDT (fieldX w)
  | .ldVxK _ => .ldVxK (fieldX w)
  | .ldDTVx _ => .ldDTVx (fieldX w)
  | .ldSTVx _ => .ldSTVx (fieldX w)
  | .addIVx _ => .addIVx (fieldX w)
  | .ldFVx _ => .ldFVx (fieldX w)
  | .ldBVx _ => .ldBVx (fieldX w)
  | .ldMemVx _ => .ldMemVx (fieldX w)
  | .ldVxMem _ => .ldVxMem (fieldX w)

@[simp] theorem Instr.row_withFields (w : Word) (j : Instr) : (j.withFields w).row = j.row := by
  cases j <;> rfl

/-- A word of a row is the opcode of the row's instruction with the word's own fields as operands. -/
theorem encode_withFields {j : Instr} (h : j.row.covers w = true) : encode (j.withFields w) = w := by
  replace h := of_decide_eq_true h
  cases j
  case cls | ret => exact h.symm.trans (BitVec.and_allOnes (x := w))
  case jpAddr | callAddr | ldIAddr | jpV0Addr => exact formatA_of_fields w _ (fieldOp_of_and h)
  case seVxByte | sneVxByte | ldVxByte | addVxByte | rndVxByte =>
    exact formatRI_of_fields w _ (fieldOp_of_and h)
  case drwVxVyNibble => exact formatRR_of_fields w _ _ (fieldOp_of_and h) rfl
  case seVxVy | ldVxVy | orVxVy | andVxVy | xorVxVy | addVxVy | subVxVy | shrVxVy | subnVxVy | shlVxVy | sneVxVy =>
    exact formatRR_of_and_sub h
  all_goals exact formatRI_of_and_sub h

/-- An instruction's opcode lies in its row, assembled from the lemmas of the single instructions. -/
theorem Instr.row_covers_encode (i : Instr) : i.row.covers (encode i) = true :=
  match i with
  | .cls => Laws.TableRow.cls
  | .ret => Laws.TableRow.ret
  | .jpAddr nnn => Laws.TableRow.jpAddr nnn
  | .callAddr nnn => Laws.TableRow.callAddr nnn
  | .seVxByte x nn => Laws.TableRow.seVxByte x nn
  | .sneVxByte x nn => Laws.TableRow.sneVxByte x nn
  | .seVxVy x y => Laws.TableRow.seVxVy x y
  | .ldVxByte x nn => Laws.TableRow.ldVxByte x nn
  | .addVxByte x nn => Laws.TableRow.addVxByte x nn
  | .ldVxVy x y => Laws.TableRow.ldVxVy x y
  | .orVxVy x y => Laws.TableRow.orVxVy x y
  | .andVxVy x y => Laws.TableRow.andVxVy x y
  | .xorVxVy x y => Laws.TableRow.xorVxVy x y
  | .addVxVy x y => Laws.TableRow.addVxVy x y
  | .subVxVy x y => Laws.TableRow.subVxVy x y
  | .shrVxVy x y => Laws.TableRow.shrVxVy x y
  | .subnVxVy x y => Laws.TableRow.subnVxVy x y
  | .shlVxVy x y => Laws.TableRow.shlVxVy x y
  | .sneVxVy x y => Laws.TableRow.sneVxVy x y
  | .ldIAddr nnn => Laws.TableRow.ldIAddr nnn
  | .jpV0Addr nnn => Laws.TableRow.jpV0Addr nnn
  | .rndVxByte x nn => Laws.TableRow.rndVxByte x nn
  | .drwVxVyNibble x y n => Laws.TableRow.drwVxVyNibble x y n
  | .skpVx x => Laws.TableRow.skpVx x
  | .sknpVx x => Laws.TableRow.sknpVx x
  | .ldVxDT x => Laws.TableRow.ldVxDT x
  | .ldVxK x => Laws.TableRow.ldVxK x
  | .ldDTVx x => Laws.TableRow.ldDTVx x
  | .ldSTVx x => Laws.TableRow.ldSTVx x
  | .addIVx x => Laws.TableRow.addIVx x
  | .ldFVx x => Laws.TableRow.ldFVx x
  | .ldBVx x => Laws.TableRow.ldBVx x
  | .ldMemVx x => Laws.TableRow.ldMemVx x
  | .ldVxMem x => Laws.TableRow.ldVxMem x

/-- Settles O5: a word of a row is the opcode of an instruction of that row, and the opcode of an instruction lies in its
row. -/
theorem tableRowsUnambiguous : Obligations.TableRowsUnambiguous := by
  unfold Obligations.TableRowsUnambiguous
  refine fun w j => ⟨fun h => ⟨j.withFields w, ?_, j.row_withFields w⟩, ?_⟩
  · have hw : decode (encode (j.withFields w)) = .ok (j.withFields w) := decode_encode _
    rwa [encode_withFields h] at hw
  · rintro ⟨i, hi, hrow⟩
    rw [← hrow, ← encode_of_decode hi]
    exact i.row_covers_encode

/-! ### Words written out -/

/-- Settles O4: the decoder evaluated on each of the eleven words. -/
theorem writtenOutWordsDecode : Obligations.WrittenOutWordsDecode := by
  unfold Obligations.WrittenOutWordsDecode
  decide

end Sys2Proof

/-! SUPPORT. The cycle (40_cycle.md): what a cycle does in each of its cases, that neither a cycle nor an instruction sees the
clock, and the rounds of `advance`. -/

namespace Sys2Proof.Machine

-- One theorem after another: many at once ask for more threads than a memory limit of the check allows.
set_option Elab.async false

variable {s t u : State} {i : Instr}

/-! ### The cycle, case by case -/

theorem cycle_of_fetch_past_end (h : s.pc.toNat + 2 > 4096) : cycle s = .fault (.memoryFault s.pc.toNat 2 s.pc) := by
  rcases cycle_cases s with ⟨-, e⟩ | ⟨h', -⟩ | ⟨i, ⟨h', -⟩, -⟩
  · exact e
  · exact absurd h (not_lt.2 h')
  · exact absurd h (not_lt.2 h')

theorem cycle_of_invalid_word (h : s.pc.toNat + 2 ≤ 4096) (hd : decode s.wordAtPc = .error (.invalidOpcode s.wordAtPc)) :
    cycle s = .fault (.invalidOpcode s.wordAtPc s.pc) := by
  rcases cycle_cases s with ⟨h', -⟩ | ⟨-, -, e⟩ | ⟨i, ⟨-, hd'⟩, -⟩
  · exact absurd h' (not_lt.2 h)
  · exact e
  · rw [hd] at hd'
    cases hd'

theorem cycle_fault_of_about {f : Fault} (ha : s.About i) (hx : exec i s = .fault f) : cycle s = .fault f := by
  rcases fetch_cases s with ⟨h, -⟩ | ⟨-, hf⟩
  · exact absurd ha.1 (not_le.2 h)
  · simp only [cycle, hf, ha.2, hx]

/-- Settles O6: each clause is one case of the cycle, and `step` is that cycle. -/
theorem stepRunsDecodedInstruction : Obligations.StepRunsDecodedInstruction := by
  unfold Obligations.StepRunsDecodedInstruction
  intro s
  have both {f : Fault} (hc : cycle s = .fault f) : cycle s = .fault f ∧ step s = .fault f := ⟨hc, step_fault_iff.2 hc⟩
  refine ⟨wordOfBytes_toNat _ _, fun h => both (cycle_of_fetch_past_end h),
    fun h => ⟨fun hd => ?invalid, fun i hd => ?run⟩⟩
  case invalid => exact both (cycle_of_invalid_word h hd)
  case run =>
    have ha : s.About i := ⟨h, hd⟩
    exact ⟨fun t hx => ⟨cycle_of_about ha hx, step_of_about ha hx⟩, fun f hx => both (cycle_fault_of_about ha hx)⟩

/-! ### The program counter -/

/-- Settles O28: `PC` after an instruction is that of an action it may return. -/
theorem pcActionsByInstruction : Obligations.PcActionsByInstruction := by
  unfold Obligations.PcActionsByInstruction
  intro i s t h
  obtain ⟨a, ha, e⟩ := exec_pc h
  cases i
  case jpAddr | jpV0Addr | callAddr | ret => trivial
  case seVxByte | sneVxByte | seVxVy | sneVxVy | skpVx | sknpVx | ldVxK =>
    exact ha.imp (fun ha => e.trans (congrArg _ ha)) fun ha => e.trans (congrArg _ ha)
  all_goals exact e.trans (congrArg _ ha)

/-- Settles O16: the fetch of a completed cycle bounds `PC` before it, and `exec_pc_le` bounds `PC` after it. -/
theorem pcNeverWraps : Obligations.PcNeverWraps := by
  unfold Obligations.PcNeverWraps
  intro s t hs h
  obtain ⟨i, u, ha, hx, rfl⟩ := step_next h
  have hpc : s.pc.toNat + 2 ≤ 4096 := ha.1
  have hpc' := exec_pc_le hs ha hx
  refine ⟨?_, ?_, hpc'⟩
  · rw [State.nextPc]
    bv_omega
  · rw [State.skipPc]
    bv_omega

/-! ### The clock is not seen by a cycle -/

@[simp] theorem State.withClock_i (s : State) (c : Rat) : (s.withClock c).i = s.i := rfl
@[simp] theorem State.withClock_sp (s : State) (c : Rat) : (s.withClock c).sp = s.sp := rfl
@[simp] theorem memRead_withClock (s : State) (c : Rat) (addr n : Nat) :
    memRead (s.withClock c) addr n = memRead s addr n := rfl
@[simp] theorem findReleased_withClock (s : State) (c : Rat) : findReleased (s.withClock c) = findReleased s := rfl

/-- What `FX33` and `FX55` do does not depend on the clock. -/
theorem storeAtI_withClock (bytes : List Byte) (s : State) (c : Rat) :
    storeAtI bytes (s.withClock c) = mapNext (·.withClock c) (storeAtI bytes s) := by
  rcases storeAtI_cases bytes s with ⟨h, e⟩ | ⟨h, e⟩ <;>
    rcases storeAtI_cases bytes (s.withClock c) with ⟨h', e'⟩ | ⟨h', e'⟩
  · rw [e, e']; rfl
  · exact absurd h (not_lt.2 h')
  · exact absurd h' (not_lt.2 h)
  · rw [e, e']; rfl

/-- An instruction neither reads nor changes the clock (R77). -/
theorem exec_withClock (i : Instr) (s : State) (c : Rat) :
    exec i (s.withClock c) = mapNext (·.withClock c) (exec i s) := by
  cases i
  case ret =>
    show execRet _ = mapNext _ (execRet s)
    by_cases h : s.sp = 0 <;> simp only [execRet, State.withClock_sp, h, if_true, if_false] <;> rfl
  case callAddr nnn =>
    show execCallAddr nnn _ = mapNext _ (execCallAddr nnn s)
    by_cases h : Config.stackDepth ≤ s.sp.toNat <;>
      simp only [execCallAddr, State.withClock_sp, h, if_true, if_false] <;> rfl
  case ldBVx x => exact storeAtI_withClock _ s c
  case ldMemVx x => exact storeAtI_withClock _ s c
  case ldVxMem x =>
    simp only [exec, execLdVxMem, memRead_withClock, State.withClock_i]
    cases memRead s s.i.toNat (bulkCount x) <;> rfl
  case drwVxVyNibble x y n =>
    simp only [exec, execDrwVxVyNibble, memRead_withClock, State.withClock_i]
    cases memRead s s.i.toNat n.val <;> rfl
  case ldVxK x =>
    simp only [exec, execLdVxK, findReleased_withClock]
    cases findReleased s <;> rfl
  all_goals rfl

/-- A cycle's result with another clock in the state it leaves. -/
def CycleResult.withClock (c : Rat) : CycleResult → CycleResult
  | .ok r t => .ok r (t.withClock c)
  | .fault f => .fault f
  | .refused r => .refused r

theorem cycle_withClock (s : State) (c : Rat) : cycle (s.withClock c) = (cycle s).withClock c := by
  have hf : fetch (s.withClock c) = fetch s := rfl
  simp only [cycle, hf, exec_withClock]
  cases fetch s with
  | error f => rfl
  | ok w =>
    dsimp only
    cases decode w with
    | error e => rfl
    | ok i =>
      dsimp only
      cases exec i s <;> rfl

theorem step_withClock (s : State) (c : Rat) : step (s.withClock c) = mapNext (·.withClock c) (step s) := by
  rw [step, step, cycle_withClock]
  cases cycle s <;> rfl

/-- Settles O54: no stage of the cycle looks at the clock, and no instruction writes it. -/
theorem stepIgnoresTheClock : Obligations.StepIgnoresTheClock := by
  unfold Obligations.StepIgnoresTheClock
  exact fun s c => ⟨step_withClock s c, fun t h => (step_keeps_clock_and_cfg h).1⟩

/-! ### The rounds of `advance` -/

theorem microsPerInstruction_nonneg (s : State) : 0 ≤ microsPerInstruction s := by
  unfold microsPerInstruction
  positivity

theorem microsPerInstruction_pos (h : 0 < s.cfg.ips) : 0 < microsPerInstruction s := by
  unfold microsPerInstruction
  positivity

theorem microsPerInstruction_of_cfg (h : t.cfg = s.cfg) : microsPerInstruction t = microsPerInstruction s := by
  rw [microsPerInstruction, h, microsPerInstruction]

/-- A run keeps the configuration, since each of its cycles does. -/
theorem run_keeps_cfg {n : Nat} (h : Sys2Proof.core.run n s = .next u) : u.cfg = s.cfg := by
  induction n generalizing s with
  | zero => cases h; rfl
  | succ n ih =>
    obtain ⟨t, hs, hr⟩ := run_succ_next h
    exact (ih hr).trans (step_keeps_clock_and_cfg hs).2

/-- `advance` while cycles are due and complete: `n` rounds lead where `n` steps lead, OR their indications to the one so
far, and take `n` periods from the clock (R78, R81). -/
theorem advanceLoop_run {n : Nat} {c : Rat} (fuel k : Nat) (r : Bool) (hrun : Sys2Proof.core.run n s = .next u)
    (hdue : n * microsPerInstruction s ≤ c) :
    advanceLoop (fuel + n) k r (s.withClock c) =
      advanceLoop fuel (k + n) (r || redrawSeen n s) (u.withClock (c - n * microsPerInstruction s)) := by
  induction n generalizing s c k r with
  | zero =>
    cases hrun
    simp [redrawSeen]
  | succ n ih =>
    obtain ⟨t, hs, hr⟩ := run_succ_next hrun
    obtain ⟨q, hc⟩ := step_next_iff.1 hs
    have hP : microsPerInstruction t = microsPerInstruction s :=
      microsPerInstruction_of_cfg (step_keeps_clock_and_cfg hs).2
    have hrest : (n : Rat) * microsPerInstruction t ≤ c - microsPerInstruction s := by
      rw [hP]
      push_cast at hdue
      linarith
    have hfirst : microsPerInstruction s ≤ c := by
      have := mul_nonneg n.cast_nonneg (microsPerInstruction_nonneg t)
      linarith
    have hround : cycle (s.withClock c) = .ok q (t.withClock c) := by
      rw [cycle_withClock, hc, CycleResult.withClock]
    have hseen : redrawSeen (n + 1) s = (q || redrawSeen n t) := by
      rw [redrawSeen, hc]
    calc advanceLoop (fuel + n + 1) k r (s.withClock c)
        = advanceLoop (fuel + n) (k + 1) (r || q) (t.withClock (c - microsPerInstruction s)) :=
          advanceLoop_next (s.withClock c) _ k r hfirst hround
      _ = advanceLoop fuel (k + 1 + n) ((r || q) || redrawSeen n t)
            (u.withClock (c - microsPerInstruction s - n * microsPerInstruction t)) := ih _ _ hr hrest
      _ = _ := by
          rw [hseen, hP, Bool.or_assoc, Nat.add_right_comm, Nat.add_assoc k]
          congr 2
          push_cast
          ring

/-- `advance` whose first `n` due cycles complete goes on from where `n` steps lead. -/
theorem advance_run {n fuel : Nat} (e : Nat) (hrun : Sys2Proof.core.run n s = .next u)
    (hdue : n * microsPerInstruction s ≤ s.clockAcc + e) (hfuel : cyclesDue (s.addElapsed e) = fuel + n) :
    advance e s = advanceLoop fuel n (redrawSeen n s) (u.withClock (s.clockAcc + e - n * microsPerInstruction s)) := by
  have h := advanceLoop_run fuel 0 false hrun hdue
  rw [Nat.zero_add, Bool.false_or] at h
  rw [advance, hfuel]
  exact h

/-- Settles O55: the periods due are the floor of the quotient, so all of them run and less than one is left. -/
theorem advanceRunsTheCyclesDue : Obligations.AdvanceRunsTheCyclesDue := by
  unfold Obligations.AdvanceRunsTheCyclesDue
  intro s e hips hclock P n u hrun
  have hP : 0 < P := microsPerInstruction_pos hips
  have hc : 0 ≤ s.clockAcc + (e : Rat) := add_nonneg hclock e.cast_nonneg
  obtain ⟨hlo, hhi⟩ := floor_toNat_bounds (div_nonneg hc hP.le)
  rw [le_div_iff₀ hP] at hlo
  rw [div_lt_iff₀ hP] at hhi
  refine ⟨?_, sub_nonneg.2 hlo, by linarith⟩
  exact advance_run (fuel := 0) e hrun hlo (Nat.zero_add _).symm

/-- Time for `n` periods makes `n` cycles due (R78). -/
theorem le_cyclesDue {n : Nat} (hips : 0 < s.cfg.ips) (h : n * microsPerInstruction s ≤ s.clockAcc) :
    n ≤ cyclesDue s := by
  have hP := microsPerInstruction_pos hips
  have hq : ((n : Int) : Rat) ≤ s.clockAcc / microsPerInstruction s := by
    rw [le_div_iff₀ hP]
    exact_mod_cast h
  have hfloor : (n : Int) ≤ (s.clockAcc / microsPerInstruction s).floor := Int.le_floor.2 hq
  rw [cyclesDue]
  omega

/-- Settles O56: the rounds before the fault are those of O55, and the next one is due and faults. -/
theorem advanceStopsAtTheFault : Obligations.AdvanceStopsAtTheFault := by
  unfold Obligations.AdvanceStopsAtTheFault
  intro s e n u f hips hclock P hdue hrun hfault t
  have hP : 0 < P := microsPerInstruction_pos hips
  have hcfg : t.cfg = s.cfg := run_keeps_cfg (u := u) hrun
  have htaken : n * P ≤ s.clockAcc + e := by linarith
  have hleft : P ≤ s.clockAcc + e - n * P := by linarith
  have hn : n + 1 ≤ cyclesDue (s.addElapsed e) := le_cyclesDue hips (by exact_mod_cast hdue)
  obtain ⟨k, hk⟩ := Nat.exists_eq_add_of_le' hn
  have hstep : step t = .fault f := by
    rw [step_withClock, hfault, mapNext]
  refine ⟨?_, hstep, by rw [afterCall, hstep]⟩
  rw [advance_run (fuel := k + 1) e hrun htaken (by omega)]
  refine advanceLoop_fault t k n _ ?_ (step_fault_iff.1 hstep)
  rw [microsPerInstruction_of_cfg hcfg]
  exact hleft

/-! ### The rate -/

/-- Settles O57: the two answers of `set_rate`; the accepted one replaces `IPS` and no other part of the state. -/
theorem rateChange : Obligations.RateChange := by
  unfold Obligations.RateChange
  intro r s
  rcases setRate_cases s r with ⟨h, e⟩ | ⟨h, e⟩
  · exact ⟨fun _ => ⟨e, by rw [afterCall, e]; rfl⟩, fun h' => absurd h h'⟩
  · refine ⟨fun h' => absurd h' h, fun _ => ⟨_, e, by rw [afterCall, e]; rfl, rfl, fun p hp => ?_, rfl, rfl⟩⟩
    cases p
    case configuration => exact absurd rfl hp
    all_goals rfl

end Sys2Proof.Machine

/-! SUPPORT. Control flow (41_control_flow.md): the inversion of `exec` read the other way, the opcode of an instruction, and
the jumps, the calls and the skips. -/

namespace Sys2Proof.Machine

-- One theorem after another: many at once ask for more threads than a memory limit of the check allows.
set_option Elab.async false

variable {s t u : State} {i : Instr}

/-! ### An instruction completes exactly as described -/

/-- The converse of `exec_next`: under its guard an instruction does complete. -/
theorem exec_of_execNext (h : ExecNext i s t) : exec i s = .next t := by
  cases i
  case ret =>
    obtain ⟨hsp, rfl⟩ := h
    exact ((execRet_cases s).resolve_left fun hf => hsp hf.1).2
  case callAddr nnn =>
    obtain ⟨hsp, rfl⟩ := h
    exact ((execCallAddr_cases nnn s).resolve_left fun hf => not_lt.2 hf.1 hsp).2
  case seVxByte x nn | sneVxByte x nn =>
    obtain rfl := h
    by_cases hx : s.reg x = nn <;> simp [exec, execSeVxByte, execSneVxByte, skipIf, complete, hx]
  case seVxVy x y | sneVxVy x y =>
    obtain rfl := h
    by_cases hx : s.reg x = s.reg y <;> simp [exec, execSeVxVy, execSneVxVy, skipIf, complete, hx]
  case skpVx x | sknpVx x =>
    obtain rfl := h
    by_cases hx : keyPressed s (s.reg x) = true <;> simp [exec, execSkpVx, execSknpVx, skipIf, complete, hx]
  case drwVxVyNibble x y n =>
    obtain ⟨hi, rfl⟩ := h
    exact ((execDrwVxVyNibble_cases x y n s).resolve_left fun hf => not_le.2 hf.1 hi).2
  case ldVxK x =>
    rcases h with ⟨k, hk, hmin, rfl⟩ | ⟨hn, rfl⟩ <;> rcases execLdVxK_cases x s with ⟨k', hk', hmin', e⟩ | ⟨hn', e⟩
    · obtain rfl : k = k' := le_antisymm (not_lt.1 fun hlt => hmin k' hlt hk') (not_lt.1 fun hlt => hmin' k hlt hk)
      exact e
    · exact absurd hk (hn' k)
    · exact absurd hk' (hn k')
    · exact e
  case ldBVx x =>
    obtain ⟨hi, rfl⟩ := h
    exact ((storeAtI_cases (bcdDigits (s.reg x)) s).resolve_left fun hf => not_le.2 hf.1 hi).2
  case ldMemVx x =>
    obtain ⟨hi, rfl⟩ := h
    rw [← length_dumpBytes s x] at hi
    exact ((storeAtI_cases (dumpBytes s x) s).resolve_left fun hf => not_le.2 hf.1 hi).2
  case ldVxMem x =>
    obtain ⟨hi, rfl⟩ := h
    exact ((execLdVxMem_cases x s).resolve_left fun hf => not_le.2 hf.1 hi).2
  all_goals
    obtain rfl := h
    rfl

/-- To show that an instruction completes, name the state it leaves. -/
theorem ExecNext.completes {post : State → Prop} (h : ExecNext i s t) (hp : post t) : Completes i s post :=
  ⟨t, exec_of_execNext h, hp⟩

/-- An instruction's encoding line is enough: the decoder inverts the encoder. -/
theorem hasOpcode_of_encode {w : Word} (h : encode i = w) : HasOpcode i w := ⟨h, h ▸ decode_encode i⟩

/-! ### Jumps -/

/-- The target of `BNNN` does not wrap: it is at most `0xFFF + 0xFF` (R92). -/
theorem indirectTarget_toNat (s : State) (nnn : Addr) :
    (indirectTarget s nnn).toNat = nnn.toNat + (s.reg 0).toNat := by
  simp only [indirectTarget, BitVec.toNat_add, BitVec.toNat_setWidth]
  omega

/-- Settles O21: both jumps end with their target in `PC` and update nothing else. -/
theorem jumpsGoToTheirTarget : Obligations.JumpsGoToTheirTarget := by
  unfold Obligations.JumpsGoToTheirTarget
  refine fun nnn s => ⟨⟨hasOpcode_of_encode (formatA_eq_or 0x1 nnn), ?direct⟩,
    ⟨hasOpcode_of_encode (formatA_eq_or 0xB nnn), ?indirect⟩⟩
  case direct =>
    have hpc : (zext16 nnn).toNat = nnn.toNat := BitVec.toNat_setWidth_of_le (by decide)
    exact ExecNext.completes rfl ⟨hpc, rfl, keeps_finish s _ _⟩
  case indirect =>
    exact ExecNext.completes rfl ⟨indirectTarget_toNat s nnn, rfl, keeps_finish s _ _⟩

/-! ### Calls and returns -/

/-- Settles O22: a full stack is the fault of `2NNN`; with room the push writes the entry at `SP` and `SP` alone. -/
theorem callPushesItsOwnAddress : Obligations.CallPushesItsOwnAddress := by
  unfold Obligations.CallPushesItsOwnAddress
  refine fun nnn s => ⟨hasOpcode_of_encode (formatA_eq_or 0x2 nnn), fun hsp => ?full, fun k hk => ?room⟩
  case full => exact ((execCallAddr_cases nnn s).resolve_right fun hn => hn.1.ne hsp).2
  case room =>
    have hroom : s.sp.toNat < 16 := hk ▸ k.isLt
    have hentry : (s.push s.pc).stack[k] = s.pc := by rw [getElem_push, if_pos hk]
    have hsp : (s.sp + 1).toNat = s.sp.toNat + 1 := by bv_omega
    refine ExecNext.completes ⟨hroom, rfl⟩ ⟨hentry, hsp, rfl, rfl, ?_⟩
    exact (keeps_complete (keeps_push s s.pc k hk) _ _).mono fun _ => or_assoc.1

/-- Settles O23: an empty stack is the fault of `00EE`; otherwise the top entry is read and `SP` alone is written. -/
theorem retResumesAfterTheCall : Obligations.RetResumesAfterTheCall := by
  unfold Obligations.RetResumesAfterTheCall
  refine ⟨hasOpcode_of_encode rfl, fun s => ⟨fun hsp => ?empty, fun k hk => ?occupied⟩⟩
  case empty => exact ((execRet_cases s).resolve_right fun hn => hn.1 hsp).2
  case occupied =>
    have hne : s.sp ≠ 0 := by bv_omega
    have hsp : (s.sp - 1).toNat = k.val := by bv_omega
    have hpc : (s.stackTop + 2).toNat = (s.stack[k].toNat + 2) % 65536 := by
      rw [stackTop_of_occupied s k hk, BitVec.toNat_add]
      rfl
    exact ExecNext.completes ⟨hne, rfl⟩ ⟨hsp, hpc, rfl, keeps_complete (keeps_pop s) _ _⟩

/-- What `00EE` finds after `2NNN`: the address of the CALL, one entry above the `SP` before it. -/
theorem stackTop_of_push {w : Word} (h : s.sp.toNat < 16) (hsp : u.sp = (s.push w).sp)
    (hstack : u.stack = (s.push w).stack) : u.sp.toNat = s.sp.toNat + 1 ∧ u.stackTop = w := by
  have hnat : u.sp.toNat = s.sp.toNat + 1 := by
    rw [hsp, State.push_sp]
    bv_omega
  refine ⟨hnat, ?_⟩
  rw [stackTop_of_occupied u ⟨s.sp.toNat, h⟩ hnat, hstack, getElem_push, if_pos rfl]

/-- Settles O24: the entry that the RET reads is the one that the CALL pushed. -/
theorem callThenRet : Obligations.CallThenRet := by
  unfold Obligations.CallThenRet
  intro nnn s t u h hsp hstack
  obtain ⟨hroom, rfl⟩ := exec_next h
  obtain ⟨hnat, htop⟩ := stackTop_of_push (w := s.pc) hroom hsp hstack
  have hne : u.sp ≠ 0 := by bv_omega
  have hpop : u.sp - 1 = s.sp := by bv_omega
  exact ExecNext.completes ⟨hne, rfl⟩ ⟨congrArg (· + 2) htop, hpop⟩

/-! ### Skips -/

/-- An instruction that leaves nothing but a PC action chosen by a condition: `PC` is that of the one action or of the other. -/
theorem ExecNext.completes_ite {p : Prop} [Decidable p] (a b : PcAction)
    (h : ExecNext i s (s.finish (if p then a else b) false)) :
    Completes i s fun t =>
      t.pc = (if p then pcAfter s.pc a else pcAfter s.pc b) ∧ t.redraw = false ∧ KeepsAllBut Part.sequencing s t :=
  h.completes ⟨apply_ite (pcAfter s.pc) p a b, rfl, keeps_finish s _ _⟩

/-- Settles O25: a skip chooses its PC action by the comparison and updates nothing else. -/
theorem skipsOnImmediate : Obligations.SkipsOnImmediate := by
  unfold Obligations.SkipsOnImmediate
  refine fun x nn s => ⟨⟨hasOpcode_of_encode (formatRI_eq_or 0x3 x nn), ?equal⟩,
    ⟨hasOpcode_of_encode (formatRI_eq_or 0x4 x nn), ?differ⟩⟩
  case equal => exact ExecNext.completes_ite .skip .next rfl
  case differ => exact ExecNext.completes_ite .next .skip rfl

/-- Settles O26: the comparison of two registers chooses the PC action, as that with an immediate does. -/
theorem skipsOnRegisters : Obligations.SkipsOnRegisters := by
  unfold Obligations.SkipsOnRegisters
  refine fun x y s => ⟨⟨hasOpcode_of_encode (formatRR_eq_or_sub 0x5 x y 0), ?equal⟩,
    ⟨hasOpcode_of_encode (formatRR_eq_or_sub 0x9 x y 0), ?differ⟩⟩
  case equal => exact ExecNext.completes_ite .skip .next rfl
  case differ => exact ExecNext.completes_ite .next .skip rfl

end Sys2Proof.Machine

/-! SUPPORT. Moves, arithmetic, logic and shifts (42_moves_arith.md): the two shapes of the family, an instruction that writes
one register and one that then writes the flag, and the arithmetic of results and flags. -/

namespace Sys2Proof.Machine

-- One theorem after another: many at once ask for more threads than a memory limit of the check allows.
set_option Elab.async false

variable {s : State} {i : Instr} {x : RegIdx} {b : Byte} {f : Bool} {value flag : Byte → Prop}

/-! ### The two shapes -/

/-- An instruction that writes one register and no flag: the register holds the result, and the frame is that register. -/
theorem ExecNext.completes_setReg (h : ExecNext i s ((s.setReg x b).finish .next false)) (hb : value b) :
    Completes i s fun t =>
      value (t.reg x) ∧ t.pc = s.nextPc ∧ t.redraw = false ∧ KeepsAllBut (fun p => p = .reg x ∨ p.sequencing) s t := by
  have hx : ((s.setReg x b).finish .next false).reg x = b := by
    rw [reg_of_v (State.finish_v _ _ _), reg_setReg, if_pos rfl]
  exact h.completes ⟨by rwa [hx], rfl, rfl, keeps_complete (keeps_setReg s x b) _ _⟩

/-- An instruction that writes its result and then the flag: `VF` holds the flag even where it is the destination, and any other
destination holds the result (R96). -/
theorem ExecNext.completes_setFlag (h : ExecNext i s (((s.setReg x b).setFlag f).finish .next false)) (hb : value b)
    (hf : flag (flagByte f)) :
    Completes i s fun t =>
      (x ≠ regVF → value (t.reg x)) ∧ flag (t.reg regVF) ∧ t.pc = s.nextPc ∧ t.redraw = false ∧
        KeepsAllBut (fun p => p = .reg x ∨ p = .reg regVF ∨ p.sequencing) s t := by
  have hreg (y : RegIdx) : (((s.setReg x b).setFlag f).finish .next false).reg y =
      if y = regVF then flagByte f else if y = x then b else s.reg y := by
    rw [reg_of_v (State.finish_v _ _ _), reg_setFlag, reg_setReg]
  refine h.completes ⟨fun hx => ?result, ?flag, rfl, rfl, ?frame⟩
  case result => rwa [hreg, if_neg hx, if_pos rfl]
  case flag => rwa [hreg, if_pos rfl]
  case frame =>
    have hk := (keeps_setReg s x b).trans_or (keeps_setFlag (s.setReg x b) f)
    exact (keeps_complete hk _ _).mono fun _ => or_assoc.1

/-! ### Results and flags, as numbers and as bits -/

/-- The bits of a byte are those that a Boolean operation makes of the bits of two others (R100 to R102). -/
def BitsAre (op : Bool → Bool → Bool) (a b r : Byte) : Prop :=
  ∀ k, k < 8 → r.getLsbD k = op (a.getLsbD k) (b.getLsbD k)

theorem bitsAre_or (a b : Byte) : BitsAre or a b (a ||| b) := fun _ _ => BitVec.getLsbD_or

theorem bitsAre_and (a b : Byte) : BitsAre and a b (a &&& b) := fun _ _ => BitVec.getLsbD_and

theorem bitsAre_xor (a b : Byte) : BitsAre xor a b (a ^^^ b) := fun _ _ => BitVec.getLsbD_xor

theorem flagByte_decide (p : Prop) [Decidable p] : flagByte (decide p) = if p then 1 else 0 := by
  by_cases hp : p <;> simp [flagByte, hp]

theorem flagByte_carry (a b : Byte) : flagByte (carry a b) = if a.toNat + b.toNat ≥ 256 then 1 else 0 := flagByte_decide _

theorem flagByte_notBorrow (a b : Byte) : flagByte (notBorrow a b) = if a.toNat ≥ b.toNat then 1 else 0 := flagByte_decide _

theorem flagByte_toNat (f : Bool) : (flagByte f).toNat = f.toNat := by cases f <;> rfl

/-- A difference modulo 256, with the integer remainder: nothing is cut off at 0. -/
theorem toNat_sub_emod (a b : Byte) : ((a - b).toNat : Int) = (a.toNat - b.toNat : Int) % 256 := by
  rw [BitVec.toNat_sub]
  omega

theorem toNat_ushiftRight_one (b : Byte) : (b >>> 1).toNat = b.toNat / 2 := by
  rw [BitVec.toNat_ushiftRight, Nat.shiftRight_one]

theorem toNat_shiftLeft_one (b : Byte) : (b <<< 1).toNat = b.toNat * 2 % 256 := by
  rw [BitVec.toNat_shiftLeft, Nat.shiftLeft_eq]

theorem flagByte_shiftedOutRight (b : Byte) : (flagByte (shiftedOutRight b)).toNat = b.toNat % 2 := by
  rw [flagByte_toNat, shiftedOutRight, BitVec.getLsbD, Nat.toNat_testBit, pow_zero, Nat.div_one]

theorem flagByte_shiftedOutLeft (b : Byte) : (flagByte (shiftedOutLeft b)).toNat = b.toNat / 128 := by
  rw [flagByte_toNat, shiftedOutLeft, BitVec.getLsbD, Nat.toNat_testBit]
  omega

/-- The shift operand is the value that the configuration selects (R106). -/
theorem eq_shiftOperand {y : RegIdx} (hx : s.cfg.shiftSource = .vx → b = s.reg x)
    (hy : s.cfg.shiftSource = .vy → b = s.reg y) : b = shiftOperand s x y := by
  unfold shiftOperand
  cases hs : s.cfg.shiftSource with
  | vx => exact hx hs
  | vy => exact hy hs

/-! ### The statements -/

/-- Settles O29: each of the three writes one register with the value of its rule. -/
theorem movesAndAddImmediate : Obligations.MovesAndAddImmediate := by
  unfold Obligations.MovesAndAddImmediate
  refine fun x y nn s => ⟨⟨hasOpcode_of_encode (formatRI_eq_or 0x6 x nn), ?immediate⟩,
    ⟨hasOpcode_of_encode (formatRI_eq_or 0x7 x nn), ?sum⟩,
    ⟨hasOpcode_of_encode (formatRR_eq_or_sub 0x8 x y 0), ?copy⟩⟩
  case immediate => exact ExecNext.completes_setReg (value := (· = nn)) rfl rfl
  case sum =>
    exact ExecNext.completes_setReg (value := (·.toNat = ((s.reg x).toNat + nn.toNat) % 256)) rfl (BitVec.toNat_add _ _)
  case copy => exact ExecNext.completes_setReg (value := (· = s.reg y)) rfl rfl

/-- Settles O30: each of the three writes one register with the result that its operation gives bit by bit. -/
theorem bitwiseLogic : Obligations.BitwiseLogic := by
  unfold Obligations.BitwiseLogic
  refine fun x y s => ⟨⟨hasOpcode_of_encode (formatRR_eq_or_sub 0x8 x y 1), ?or⟩,
    ⟨hasOpcode_of_encode (formatRR_eq_or_sub 0x8 x y 2), ?and⟩,
    ⟨hasOpcode_of_encode (formatRR_eq_or_sub 0x8 x y 3), ?xor⟩⟩
  case or => exact ExecNext.completes_setReg (value := BitsAre or (s.reg x) (s.reg y)) rfl (bitsAre_or _ _)
  case and => exact ExecNext.completes_setReg (value := BitsAre and (s.reg x) (s.reg y)) rfl (bitsAre_and _ _)
  case xor => exact ExecNext.completes_setReg (value := BitsAre xor (s.reg x) (s.reg y)) rfl (bitsAre_xor _ _)

/-- Settles O31: the sum is written, then the carry. -/
theorem addWithCarry : Obligations.AddWithCarry := by
  unfold Obligations.AddWithCarry
  refine fun x y s => ⟨hasOpcode_of_encode (formatRR_eq_or_sub 0x8 x y 4), ?_⟩
  exact ExecNext.completes_setFlag (value := (·.toNat = ((s.reg x).toNat + (s.reg y).toNat) % 256))
    (flag := (· = if (s.reg x).toNat + (s.reg y).toNat ≥ 256 then 1 else 0)) rfl
    (BitVec.toNat_add _ _) (flagByte_carry _ _)

/-- Settles O32: the difference of the two operands in either order is written, then the negated borrow of that order. -/
theorem subtractBothOrders : Obligations.SubtractBothOrders := by
  unfold Obligations.SubtractBothOrders
  refine fun x y s => ⟨⟨hasOpcode_of_encode (formatRR_eq_or_sub 0x8 x y 5), ?sub⟩,
    ⟨hasOpcode_of_encode (formatRR_eq_or_sub 0x8 x y 7), ?subn⟩⟩
  case sub =>
    exact ExecNext.completes_setFlag (value := fun r => (r.toNat : Int) = ((s.reg x).toNat - (s.reg y).toNat : Int) % 256)
      (flag := (· = if (s.reg x).toNat ≥ (s.reg y).toNat then 1 else 0)) rfl
      (toNat_sub_emod _ _) (flagByte_notBorrow _ _)
  case subn =>
    exact ExecNext.completes_setFlag (value := fun r => (r.toNat : Int) = ((s.reg y).toNat - (s.reg x).toNat : Int) % 256)
      (flag := (· = if (s.reg y).toNat ≥ (s.reg x).toNat then 1 else 0)) rfl
      (toNat_sub_emod _ _) (flagByte_notBorrow _ _)

/-- Settles O33: under either configuration the shifted operand is written, then the bit shifted out. -/
theorem shiftsByOne : Obligations.ShiftsByOne := by
  unfold Obligations.ShiftsByOne
  intro x y s b hx hy
  obtain rfl := eq_shiftOperand hx hy
  refine ⟨⟨hasOpcode_of_encode (formatRR_eq_or_sub 0x8 x y 6), ?right⟩,
    ⟨hasOpcode_of_encode (formatRR_eq_or_sub 0x8 x y 0xE), ?left⟩⟩
  case right =>
    exact ExecNext.completes_setFlag (value := (·.toNat = (shiftOperand s x y).toNat / 2))
      (flag := (·.toNat = (shiftOperand s x y).toNat % 2)) rfl
      (toNat_ushiftRight_one _) (flagByte_shiftedOutRight _)
  case left =>
    exact ExecNext.completes_setFlag (value := (·.toNat = (shiftOperand s x y).toNat * 2 % 256))
      (flag := (·.toNat = (shiftOperand s x y).toNat / 128)) rfl
      (toNat_shiftLeft_one _) (flagByte_shiftedOutLeft _)

end Sys2Proof.Machine

/-! SUPPORT. The address register (43_addressing.md): the shape of an instruction that writes `I` alone, and the words it
writes, as numbers. -/

namespace Sys2Proof.Machine

-- One theorem after another: many at once ask for more threads than a memory limit of the check allows.
set_option Elab.async false

variable {s : State} {i : Instr} {w : Word} {n : Nat}

/-- An instruction that writes `I` and nothing else: `I` holds the word, and the frame is `I`. -/
theorem ExecNext.completes_setI (h : ExecNext i s ((s.setI w).finish .next false)) (hw : w.toNat = n) :
    Completes i s fun t =>
      t.i.toNat = n ∧ t.pc = s.nextPc ∧ t.redraw = false ∧ KeepsAllBut (fun p => p = .i ∨ p.sequencing) s t :=
  h.completes ⟨hw, rfl, rfl, keeps_complete (keeps_setI s w) _ _⟩

/-- An address widens to a word without loss (R110). -/
theorem toNat_zext16_addr (a : Addr) : (zext16 a).toNat = a.toNat := BitVec.toNat_setWidth_of_le (by decide)

/-- The sum of a word and a byte wraps at 16 bits and at no narrower width (R112). -/
theorem toNat_add_zext16_byte (w : Word) (b : Byte) : (w + zext16 b).toNat = (w.toNat + b.toNat) % 65536 := by
  rw [BitVec.toNat_add, BitVec.toNat_setWidth_of_le (by decide)]

/-- The glyphs are five bytes each from address 0, and the low nibble alone selects one (R111). -/
theorem toNat_glyphAddress (b : Byte) : (glyphAddress b).toNat = 5 * (b.toNat % 16) := by
  rw [glyphAddress, BitVec.toNat_ofNat, Config.fontBase, Config.glyphBytes]
  omega

/-- Settles O34: each of the three writes `I` with the word of its rule and updates nothing else. -/
theorem addressRegisterWrites : Obligations.AddressRegisterWrites := by
  unfold Obligations.AddressRegisterWrites
  refine fun nnn x s => ⟨⟨hasOpcode_of_encode (formatA_eq_or 0xA nnn), ?immediate⟩,
    ⟨hasOpcode_of_encode (formatRI_eq_or_sub 0xF x 0x1E), ?sum⟩,
    ⟨hasOpcode_of_encode (formatRI_eq_or_sub 0xF x 0x29), ?glyph⟩⟩
  case immediate => exact ExecNext.completes_setI rfl (toNat_zext16_addr nnn)
  case sum => exact ExecNext.completes_setI rfl (toNat_add_zext16_byte s.i (s.reg x))
  case glyph => exact ExecNext.completes_setI rfl (toNat_glyphAddress (s.reg x))

end Sys2Proof.Machine

/-! SUPPORT. The random number (44_random.md): the byte that is drawn, what the two extreme masks leave of it, and the parts that
a masked draw writes. -/

namespace Sys2Proof.Machine

-- One theorem after another: many at once ask for more threads than a memory limit of the check allows.
set_option Elab.async false

variable {s : State}

/-- An injected byte is the one drawn (R116). -/
theorem nextDraw_of_injected {b : Byte} {rest : List Byte} (h : s.rng.injected = b :: rest) : s.nextDraw = b := by
  rw [State.nextDraw, h]

theorem keeps_afterDraw_setReg (x : RegIdx) (b : Byte) :
    KeepsAllBut (fun p => p = .reg x ∨ p = .rng) s (s.afterDraw.setReg x b) :=
  ((keeps_afterDraw s).trans_or (keeps_setReg s.afterDraw x b)).mono fun _ => Or.symm

/-- Settles O35: the register holds the drawn byte AND the mask, and the random source moves on by one draw whatever the mask. -/
theorem randomMasked : Obligations.RandomMasked := by
  unfold Obligations.RandomMasked
  refine fun x nn s => ⟨hasOpcode_of_encode (formatRI_eq_or 0xC x nn), fun _ _ => nextDraw_of_injected, ?_⟩
  have hx : ((s.afterDraw.setReg x (s.nextDraw &&& nn)).finish .next false).reg x = s.nextDraw &&& nn := by
    rw [reg_of_v (State.finish_v _ _ _), reg_setReg, if_pos rfl]
  refine ExecNext.completes rfl ⟨hx, ?zero, ?ones, rfl, rfl, rfl, ?frame⟩
  case zero =>
    rintro rfl
    exact hx.trans BitVec.and_zero
  case ones =>
    rintro rfl
    exact hx.trans BitVec.and_allOnes
  case frame => exact (keeps_complete (keeps_afterDraw_setReg x _) _ _).mono fun _ => or_assoc.1

end Sys2Proof.Machine

/-! SUPPORT. BCD and bulk register transfer (45_bcd_bulk.md): the shape of an instruction that stores bytes at `I`, the decimal
digits of a byte, and the registers after a bulk load. -/

namespace Sys2Proof.Machine

-- One theorem after another: many at once ask for more threads than a memory limit of the check allows.
set_option Elab.async false

variable {s t : State} {i : Instr} {bytes : List Byte}

/-! ### What an instruction does when it completes -/

theorem Completes.mono {post post' : State → Prop} (h : Completes i s post) (hp : ∀ t, post t → post' t) :
    Completes i s post' := by
  obtain ⟨t, hx, ht⟩ := h
  exact ⟨t, hx, hp t ht⟩

/-- There is one next state, so whatever completion promises holds of it. -/
theorem Completes.of_exec {post : State → Prop} (h : Completes i s post) (hx : exec i s = .next t) : post t := by
  obtain ⟨t', hx', ht'⟩ := h
  cases hx.symm.trans hx'
  exact ht'

/-! ### The storing shape -/

/-- Past the end of memory the storing shape is the fault (R43). -/
theorem storeAtI_fault (h : s.i.toNat + bytes.length > 4096) :
    storeAtI bytes s = .fault (.memoryFault s.i.toNat bytes.length s.pc) :=
  ((storeAtI_cases bytes s).resolve_right fun hn => not_le.2 h hn.1).2

/-- An instruction that stores bytes at `I` and updates nothing else: each byte is at its place, and the frame is the range. -/
theorem ExecNext.completes_setBytes (h : ExecNext i s ((s.setBytes s.i.toNat bytes).finish .next false)) :
    Completes i s fun t =>
      (∀ j b, bytes[j]? = some b → t.byteAt (s.i.toNat + j) = b) ∧ t.pc = s.nextPc ∧ t.redraw = false ∧
        KeepsAllBut (fun p => p.bytesFrom s.i.toNat bytes.length ∨ p.sequencing) s t := by
  refine h.completes ⟨fun j b hb => ?stored, rfl, rfl, keeps_complete (keeps_setBytes s _ bytes) _ _⟩
  case stored => exact byteAt_setBytes_of_getElem? (s := s) s.i.toNat hb

/-! ### Decimal digits -/

/-- The digits of a byte as numbers: none is cut off by the eight bits that hold it. -/
theorem map_toNat_bcdDigits (b : Byte) :
    (bcdDigits b).map BitVec.toNat = [b.toNat / 100, b.toNat / 10 % 10, b.toNat % 10] := by
  have hb : b.toNat < 256 := b.isLt
  simp only [bcdDigits, List.map_cons, List.map_nil, BitVec.toNat_ofNat, List.cons.injEq, and_true]
  omega

/-- Settles O36: the three stored bytes are the digits, and the bound is that of the storing shape. -/
theorem bcdDigitsStored : Obligations.BcdDigitsStored := by
  unfold Obligations.BcdDigitsStored
  refine fun x s => ⟨hasOpcode_of_encode (formatRI_eq_or_sub 0xF x 0x33), fun hi => ?fault, fun hi => ?stored⟩
  case fault => exact storeAtI_fault (bytes := bcdDigits (s.reg x)) hi
  case stored =>
    have hx : ExecNext (.ldBVx x) s ((s.setBytes s.i.toNat (bcdDigits (s.reg x))).finish .next false) := ⟨hi, rfl⟩
    refine hx.completes_setBytes.mono ?_
    rintro t ⟨hbytes, hpc, hredraw, hframe⟩ v h d u
    obtain ⟨hh, hd, hu⟩ : h = v / 100 ∧ d = v / 10 % 10 ∧ u = v % 10 := by
      have hdigits := map_toNat_bcdDigits (s.reg x)
      rw [bcdDigits, ← hbytes 0 _ rfl, ← hbytes 1 _ rfl, ← hbytes 2 _ rfl] at hdigits
      simpa using hdigits
    exact ⟨hh, hd, hu, by omega, by omega, by omega, hpc, hredraw, hframe⟩

/-! ### Bulk transfer -/

/-- Settles O37: the stored bytes are the registers up to `X`, and the bound is that of the storing shape. -/
theorem registersDumped : Obligations.RegistersDumped := by
  unfold Obligations.RegistersDumped
  refine fun x s => ⟨hasOpcode_of_encode (formatRI_eq_or_sub 0xF x 0x55), ?_⟩
  rw [← length_dumpBytes s x]
  refine ⟨storeAtI_fault, fun hi => ?stored⟩
  case stored =>
    have hx : ExecNext (.ldMemVx x) s ((s.setBytes s.i.toNat (dumpBytes s x)).finish .next false) :=
      ⟨length_dumpBytes s x ▸ hi, rfl⟩
    refine hx.completes_setBytes.mono ?_
    rintro t ⟨hbytes, hrest⟩
    exact ⟨fun j hj => hbytes j.val _ (getElem?_dumpBytes hj), hrest⟩

/-- A bulk load of `n` bytes from `a` upwards: the registers below `n` hold them (R120). -/
theorem reg_loadRegs_range {n a : Nat} {j : RegIdx} (h : j.val < n) :
    (s.loadRegs ((List.range n).map fun k => s.byteAt (a + k))).reg j = s.byteAt (a + j.val) := by
  rw [reg_loadRegs, List.length_map, List.length_range, if_pos h]
  simp [h]

/-- The frame of a bulk load: the registers up to `X`. -/
theorem keeps_loadRegs_range (x : RegIdx) (f : Nat → Byte) :
    KeepsAllBut (fun p => ∃ j : RegIdx, j.val ≤ x.val ∧ p = .reg j) s
      (s.loadRegs ((List.range (x.val + 1)).map f)) := by
  refine (keeps_loadRegs s _).mono fun p ⟨j, hj, hp⟩ => ⟨j, ?_, hp⟩
  rw [List.length_map, List.length_range] at hj
  omega

/-- Settles O38: the bound is that of the read, and what is loaded are the bytes from `I` upwards. -/
theorem registersLoaded : Obligations.RegistersLoaded := by
  unfold Obligations.RegistersLoaded
  refine fun x s => ⟨hasOpcode_of_encode (formatRI_eq_or_sub 0xF x 0x65), fun hi => ?fault, fun hi => ?loaded⟩
  case fault => exact ((execLdVxMem_cases x s).resolve_right fun hn => not_le.2 hi hn.1).2
  case loaded =>
    refine ExecNext.completes ⟨hi, rfl⟩ ⟨fun j hj => ?value, rfl, rfl, keeps_complete (keeps_loadRegs_range x _) _ _⟩
    case value => exact reg_loadRegs_range (Nat.lt_succ_of_le hj)

/-- Settles O39: the load reads at the same `I` the bytes that the dump stored there. -/
theorem dumpThenLoadRestores : Obligations.DumpThenLoadRestores := by
  unfold Obligations.DumpThenLoadRestores
  intro x s t u hdump hI hbytes
  obtain ⟨-, -, dumped⟩ := registersDumped x s
  obtain ⟨-, -, loaded⟩ := registersLoaded x u
  obtain ⟨hbound, ht⟩ := exec_next hdump
  have hui : u.i = s.i := by rw [hI, ht]; rfl
  rw [hui] at loaded
  obtain ⟨hstored, -⟩ := (dumped hbound).of_exec hdump
  refine (loaded hbound).mono ?_
  rintro r ⟨hloaded, -⟩ j hj
  calc r.reg j = u.byteAt (s.i.toNat + j.val) := hloaded j hj
    _ = t.byteAt (s.i.toNat + j.val) := hbytes _ (by omega) (by omega)
    _ = s.reg j := hstored j hj

end Sys2Proof.Machine

/-! SUPPORT. Display (46_display.md): drawing the same rows twice, and the state that `00E0` and `DXYN` leave. -/

namespace Sys2Proof.Machine

-- One theorem after another: many at once ask for more threads than a memory limit of the check allows.
set_option Elab.async false

variable {edge : SpriteEdge} {fb : Framebuffer} {rows : List Byte} {x0 y0 : Nat}

/-! ### The indication -/

/-- Settles O43: the indication of the next state is the instruction's own, and two instructions give one. -/
theorem redrawIndication : Obligations.RedrawIndication := by
  unfold Obligations.RedrawIndication
  intro i s t h
  rw [exec_redraw h, indicates_iff]

/-! ### Clearing -/

/-- `00E0` blanks the display whatever it showed (R125). -/
theorem exec_cls (s : State) : exec .cls s = .next ((s.setFb Framebuffer.blank).finish .next true) := exec_of_execNext rfl

/-- Settles O40: the blank display is `Off` everywhere, and the frame is that of the replaced display. -/
theorem clearScreen : Obligations.ClearScreen := by
  unfold Obligations.ClearScreen
  refine ⟨hasOpcode_of_encode rfl, fun s => ?_⟩
  exact ⟨_, exec_cls s, Framebuffer.get_blank, rfl, rfl, keeps_complete (keeps_setFb s _) _ _⟩

/-! ### Drawing once -/

/-- The flag after a sprite is the collision of its blit (R132). -/
theorem reg_regVF_drawSprite (x y : RegIdx) (rows : List Byte) (s : State) :
    (drawSprite x y rows s).reg regVF =
      flagByte (draw s.cfg.spriteEdge s.fb rows ((s.reg x).toNat % 64) ((s.reg y).toNat % 32)).2 := by
  rw [drawSprite, reg_setFlag, if_pos rfl]
  rfl

/-- Settles O41: the bound is that of the read; the display and the flag are those of one blit, which says pixel by pixel what it
toggles and when it collides. -/
theorem drawPixelByPixel : Obligations.DrawPixelByPixel := by
  unfold Obligations.DrawPixelByPixel
  refine fun x y n s => ⟨hasOpcode_of_encode (formatRR_eq_or 0xD x y (.ofFin n)), fun hi => ?fault, fun hi => ?drawn⟩
  case fault => exact ((execDrwVxVyNibble_cases x y n s).resolve_right fun hn => not_le.2 hi hn.1).2
  case drawn =>
    refine ExecNext.completes ⟨hi, rfl⟩ ?_
    intro rows hit
    have hlen : rows.length ≤ 32 := by
      rw [List.length_map, List.length_range]
      omega
    have hpixel := get_draw s.cfg.spriteEdge s.fb rows ((s.reg x).toNat % 64) ((s.reg y).toNat % 32) hlen
    have hcollided := collided_draw s.cfg.spriteEdge s.fb rows ((s.reg x).toNat % 64) ((s.reg y).toNat % 32) hlen
    have hVF := reg_regVF_drawSprite x y rows s
    refine ⟨fun px py => (hpixel px py).1, fun px py => (hpixel px py).2, fun hon => ?one, fun hon => ?zero, rfl, rfl, ?frame⟩
    case one => exact hVF.trans (congrArg flagByte (hcollided.2 hon))
    case zero => exact hVF.trans (congrArg flagByte (Bool.eq_false_iff.2 fun hc => hon (hcollided.1 hc)))
    case frame => exact (keeps_complete (keeps_drawSprite x y rows s) _ _).mono fun _ => or_assoc.1

/-! ### Drawing twice -/

theorem Pixel.flip_eq_on {p : Pixel} : p.flip = .on ↔ p = .off := by cases p <;> decide

/-- A second blit of the same rows flips the same pixels back (R134 a). -/
theorem draw_draw (h : rows.length ≤ 32) : (draw edge (draw edge fb rows x0 y0).1 rows x0 y0).1 = fb := by
  refine Framebuffer.ext_get fun px py => ?_
  obtain ⟨hit, miss⟩ := get_draw edge fb rows x0 y0 h px py
  obtain ⟨hit', miss'⟩ := get_draw edge (draw edge fb rows x0 y0).1 rows x0 y0 h px py
  by_cases hc : Covered edge rows x0 y0 px py
  · rw [hit' hc, hit hc, Pixel.flip_flip]
  · rw [miss' hc, miss hc]

/-- The second blit finds `On` the covered pixels that started `Off` (R132). -/
theorem collided_draw_draw (h : rows.length ≤ 32) :
    (draw edge (draw edge fb rows x0 y0).1 rows x0 y0).2 = true ↔
      ∃ px py, Covered edge rows x0 y0 px py ∧ fb.get px py = .off := by
  rw [collided_draw _ _ _ _ _ h]
  refine exists₂_congr fun px py => and_congr_right fun hc => ?_
  rw [(get_draw edge fb rows x0 y0 h px py).1 hc, Pixel.flip_eq_on]

/-- A set bit lies in one of the sprite's rows and in one of its eight columns (R130). -/
theorem SpriteBit.bounds {r c : Nat} (h : SpriteBit rows r c) : r < rows.length ∧ c < 8 := by
  obtain ⟨row, hrow, hc, -⟩ := h
  exact ⟨(List.getElem?_eq_some_iff.1 hrow).1, hc⟩

/-- Settles O42: the two blits toggle the same pixels, each once, since a sprite is smaller than the display. -/
theorem drawTwiceRestores : Obligations.DrawTwiceRestores := by
  unfold Obligations.DrawTwiceRestores
  intro edge fb rows x0 y0 hlen hx0 hy0 first second
  have hrows : rows.length ≤ 32 := by omega
  have hsecond : second.2 = true ↔ ∃ px py, Covered edge rows x0 y0 px py ∧ fb.get px py = .off := collided_draw_draw hrows
  refine ⟨draw_draw hrows, hsecond, fun hoff => ⟨?first, ?second⟩, fun s => ?cleared, ?once⟩
  case first =>
    rw [Bool.eq_false_iff, Ne, collided_draw edge fb rows x0 y0 hrows]
    rintro ⟨px, py, hc, hon⟩
    exact Pixel.noConfusion (hon.symm.trans (hoff px py hc))
  case second =>
    rw [hsecond]
    exact exists₂_congr fun px py => and_iff_left_of_imp (hoff px py)
  case cleared => exact ⟨_, exec_cls _, rfl⟩
  case once =>
    intro r c r' c' px py hb hb' hl hl'
    obtain ⟨hr, hc⟩ := hb.bounds
    obtain ⟨hr', hc'⟩ := hb'.bounds
    exact landsOn_inj edge x0 y0 r c r' c' px py (by omega) (by omega) (by omega) (by omega) hl hl'

end Sys2Proof.Machine

/-! SUPPORT. The keypad (47_keypad.md): the slots over a whole cycle, the key instructions and the key port; and that every host
call keeps the legal states. -/

namespace Sys2Proof.Machine

-- One theorem after another: many at once ask for more threads than a memory limit of the check allows.
set_option Elab.async false

variable {s t : State} {i : Instr}

/-! ### Host calls and the legal states -/

/-- Construction with a positive rate gives a legal state (R170, R171). -/
theorem State.Inv.construct {cfg : Configuration} (hips : 0 < cfg.ips) : (State.construct cfg).Inv :=
  have stopped : TimerLegal 0 0 := decayOne_legal 0 0 0 le_rfl le_rfl
  { pcBound := (by decide : (0x200 : Word).toNat ≤ 0x10FE)
    callers := fun k => by simp [State.construct]
    spBound := Nat.zero_le _
    memory := rfl
    rate := hips
    delay := stopped
    sound := stopped
    clock := le_rfl
    quiet := rfl }

theorem State.Inv.addElapsed (hs : s.Inv) (e : Nat) : (s.addElapsed e).Inv :=
  { hs with clock := add_nonneg hs.clock e.cast_nonneg }

/-- A period that the clock holds may be taken from it (R78). -/
theorem State.Inv.takePeriod {p : Rat} (hs : s.Inv) (hp : p ≤ s.clockAcc) : (s.takePeriod p).Inv :=
  { hs with clock := sub_nonneg.2 hp }

/-- A store that fits in memory keeps its canonical form (R43). -/
theorem State.Inv.setBytes {addr : Nat} {bytes : List Byte} (hs : s.Inv) (h : addr + bytes.length ≤ 4096) :
    (s.setBytes addr bytes).Inv :=
  { hs with memory := Memory.wf_writeBytes _ bytes s.mem addr h hs.memory }

/-- Every round of `advance` is a cycle that was due, so the clock stays non-negative; a fault leaves the state as it was
(R78, R79). -/
theorem State.Inv.advanceLoop (hs : s.Inv) (fuel n : Nat) (r : Bool) : (advanceLoop fuel n r s).state.Inv := by
  induction fuel generalizing n r s with
  | zero => exact hs
  | succ fuel ih =>
    by_cases hdue : microsPerInstruction s ≤ s.clockAcc
    case neg => rwa [advanceLoop_stop s _ n r hdue]
    case pos =>
      cases hc : cycle s with
      | ok q t =>
        have hstep : step s = .next t := step_next_iff.2 ⟨q, hc⟩
        rw [advanceLoop_next s fuel n r hdue hc]
        refine ih ((stepKeepsLegal s t hs hstep).takePeriod ?_) _ _
        rwa [(step_keeps_clock_and_cfg hstep).1]
      | fault f => rwa [advanceLoop_fault s fuel n r hdue hc]
      | refused f => rwa [Machine.advanceLoop, if_pos hdue, hc]

/-- Settles O15: each port's answers one by one; `step` and the rounds of `advance` rest on O14, and the other ports write parts
that legality does not read, or write them within their bounds. -/
theorem hostCallsKeepLegal : Obligations.HostCallsKeepLegal := by
  unfold Obligations.HostCallsKeepLegal
  intro c s hs
  cases c with
  | step =>
    rw [afterCall]
    cases h : step s with
    | next t => exact stepKeepsLegal s t hs h
    | fault f => exact hs
    | refused r => exact hs
  | advance e => exact (hs.addElapsed e).advanceLoop _ _ _
  | setRate r =>
    rw [afterCall]
    rcases setRate_cases s r with ⟨-, e⟩ | ⟨hr, e⟩ <;> rw [e]
    · exact hs
    · exact { hs with rate := Nat.pos_of_ne_zero hr }
  | setKey k post =>
    rw [afterCall]
    rcases setKey_cases s k post with ⟨-, e⟩ | ⟨j, -, e⟩ <;> rw [e]
    · exact hs
    · exact { hs with }
  | load image =>
    rw [afterCall]
    rcases load_cases s image with ⟨-, e⟩ | ⟨himage, e⟩ <;> rw [e]
    · exact hs
    · exact hs.setBytes (by omega)
  | reset => exact { State.Inv.construct hs.rate with }
  | injectRandom bytes => exact { hs with }

/-! ### The slots over a cycle -/

theorem key_of_keys (h : t.keys = s.keys) (k : Fin 16) : t.key k = s.key k := by
  rw [State.key, h, State.key]

/-- A cycle that completes does to the slots what its edge clear does, since no instruction writes them (R137). -/
theorem key_of_step (h : step s = .next t) (k : Fin 16) : t.key k = (s.key k).clearEdge := by
  obtain ⟨i, u, -, hx, rfl⟩ := step_next h
  obtain ⟨hkeys, -, -⟩ := exec_keeps_host_state hx
  rw [key_of_keys (endCycle_keys u), key_clearReleasedKeys, key_of_keys hkeys]

/-- No edge outlives the cycle that sees it (R140). -/
theorem no_edge_of_step (h : step s = .next t) (k : Fin 16) : t.key k ≠ .released := by
  rw [key_of_step h]
  cases s.key k <;> decide

/-- Settles O10: the slots of the next state are those before it, each cleared. -/
theorem edgesClearedEveryCycle : Obligations.EdgesClearedEveryCycle := by
  unfold Obligations.EdgesClearedEveryCycle
  exact ⟨keeps_clearReleasedKeys, fun s t h k => (key_of_step h k).trans (clearEdge_eq _)⟩

/-! ### The skips -/

/-- An instruction that only chooses between two PC actions, by a test that decides `down`. -/
theorem ExecNext.completes_branch {p down : Prop} [Decidable p] (hp : p ↔ down) (a b : PcAction)
    (h : ExecNext i s (s.finish (if p then a else b) false)) :
    Completes i s fun t =>
      (down → t.pc = pcAfter s.pc a) ∧ (¬ down → t.pc = pcAfter s.pc b) ∧ t.redraw = false ∧
        KeepsAllBut Part.sequencing s t := by
  refine (ExecNext.completes_ite a b h).mono ?_
  rintro t ⟨hpc, hrest⟩
  exact ⟨fun hd => by rw [hpc, if_pos (hp.2 hd)], fun hd => by rw [hpc, if_neg (mt hp.1 hd)], hrest⟩

/-- Settles O44: the two skips branch on one key test, which says whether `V[X]` is the number of a `Pressed` key. -/
theorem skipsOnKey : Obligations.SkipsOnKey := by
  unfold Obligations.SkipsOnKey
  intro x s down
  have test : keyPressed s (s.reg x) = true ↔ down := keyPressed_iff s (s.reg x)
  refine ⟨⟨hasOpcode_of_encode (formatRI_eq_or_sub 0xE x 0x9E), ?pressed⟩,
    ⟨hasOpcode_of_encode (formatRI_eq_or_sub 0xE x 0xA1), ?notPressed⟩⟩
  case pressed => exact ExecNext.completes_branch test .skip .next rfl
  case notPressed => exact ExecNext.completes_branch test .next .skip rfl

/-! ### The key wait -/

/-- Settles O45: the lowest edge is written and the instruction goes on; without an edge it leaves only its PC action. -/
theorem keyWait : Obligations.KeyWait := by
  unfold Obligations.KeyWait
  refine fun x s => ⟨hasOpcode_of_encode (formatRI_eq_or_sub 0xF x 0x0A), fun k hk hmin => ?edge, fun hn => ?none⟩
  case edge =>
    have hvalue : (BitVec.ofNat 8 k.val).toNat = k.val := by
      rw [BitVec.toNat_ofNat]
      omega
    exact ExecNext.completes_setReg (value := fun b => b.toNat = k.val) (.inl ⟨k, hk, hmin, rfl⟩) hvalue
  case none => exact ExecNext.completes (.inr ⟨hn, rfl⟩) ⟨rfl, rfl, keeps_finish s _ _⟩

/-- A cycle of the wait without an edge runs the same instruction again, from the same `PC` and registers and still without an
edge (R144). -/
theorem step_keyWait_held {x : RegIdx} (ha : s.About (.ldVxK x)) (hn : ∀ k, s.key k ≠ .released) :
    ∃ t, step s = .next t ∧ t.About (.ldVxK x) ∧ (∀ k, t.key k ≠ .released) ∧ t.pc = s.pc ∧ ∀ y, t.reg y = s.reg y := by
  have hstep := step_of_about ha (exec_of_execNext (.inr ⟨hn, rfl⟩))
  exact ⟨_, hstep, ha, no_edge_of_step hstep, rfl, fun _ => rfl⟩

/-- Any number of cycles of the wait without an edge (R144). -/
theorem run_keyWait_held {x : RegIdx} (n : Nat) (ha : s.About (.ldVxK x)) (hn : ∀ k, s.key k ≠ .released) :
    ∃ t, Sys2Proof.core.run n s = .next t ∧ t.pc = s.pc ∧ ∀ y, t.reg y = s.reg y := by
  induction n generalizing s with
  | zero => exact ⟨s, run_zero s, rfl, fun _ => rfl⟩
  | succ n ih =>
    obtain ⟨u, hstep, hau, hnu, hpc, hreg⟩ := step_keyWait_held ha hn
    obtain ⟨t, hrun, hpc', hreg'⟩ := ih hau hnu
    exact ⟨t, (run_succ n hstep).trans hrun, hpc'.trans hpc, fun y => (hreg' y).trans (hreg y)⟩

/-- Settles O46: the held cycles by induction on their number; the ending cycle is the completed wait of O45 followed by the edge
clear of O10. -/
theorem keyWaitCycles : Obligations.KeyWaitCycles := by
  unfold Obligations.KeyWaitCycles
  refine fun x s ha => ⟨fun n hn => run_keyWait_held n ha hn, fun k hk hmin => ?_⟩
  obtain ⟨-, ended, -⟩ := keyWait x s
  obtain ⟨u, hx, hreg, hpc, -⟩ := ended k hk hmin
  have hstep := step_of_about ha hx
  have hclear : (endCycle u).key k = .idle := by
    rw [key_of_step hstep, hk]
    rfl
  exact ⟨_, hstep, hreg, hclear, hpc, no_edge_of_step hstep⟩

/-! ### The key port -/

theorem key_set_keys (s : State) (j k : Fin 16) (v : KeyState) :
    ({ s with keys := s.keys.set j v } : State).key k = if k = j then v else s.key k := by
  simp only [State.key, Fin.getElem_fin, Vector.getElem_set, Fin.ext_iff, eq_comm]

theorem keeps_set_keys (s : State) (j : Fin 16) (v : KeyState) :
    KeepsAllBut (fun p => p = .key j) s { s with keys := s.keys.set j v } := by
  intro p hp
  cases p with
  | key k =>
    have hk : k ≠ j := fun h => hp (congrArg Part.key h)
    exact (key_set_keys s j k v).trans (if_neg hk)
  | _ => rfl

/-- Settles O47: the port refuses a key above 15, and otherwise assigns one slot whatever it held. -/
theorem keyPostAssigns : Obligations.KeyPostAssigns := by
  unfold Obligations.KeyPostAssigns
  intro k post s
  rcases setKey_cases s k post with ⟨hk, e⟩ | ⟨j, rfl, e⟩
  · exact ⟨fun _ => ⟨e, by rw [afterCall, e]; rfl⟩, fun j hj => absurd (hj ▸ j.isLt) (not_lt.2 hk)⟩
  · refine ⟨fun hk => absurd j.isLt (not_lt.2 hk), fun j' hj => ?_⟩
    obtain rfl : j' = j := Fin.ext hj
    refine ⟨_, e, by rw [afterCall, e]; rfl, ?slot, keeps_set_keys s j' _⟩
    case slot =>
      rw [key_set_keys, if_pos rfl]
      cases post <;> rfl

end Sys2Proof.Machine

/-! SUPPORT. The timers (48_timers.md): one interface for the delay and the sound timer, from which the law of both follows, the
decay of a cycle, and the timer instructions. -/

namespace Sys2Proof.Machine

-- One theorem after another: many at once ask for more threads than a memory limit of the check allows.
set_option Elab.async false

variable {s t u : State} {i : Instr} {x : RegIdx}

/-! ### What the two timers have in common -/

/-- What a cycle does to a timer and its accumulator: one instruction writes a register to the timer and clears the accumulator,
no other instruction touches the two, and the end of the cycle decays them (R146, R147, R150, R151, R152). -/
structure IsTimer (write : RegIdx → Instr) (timer : State → Byte) (acc : State → Rat) : Prop where
  written : ∀ {x s u}, exec (write x) s = .next u → timer u = s.reg x ∧ acc u = 0
  kept    : ∀ {i s u}, exec i s = .next u → (∀ x, i ≠ write x) → timer u = timer s ∧ acc u = acc s
  decays  : ∀ u, decayOne (timer u) (acc u) (1 / (u.cfg.ips : Rat)) = (timer (endCycle u), acc (endCycle u))

theorem delayTimer : IsTimer .ldDTVx State.dt State.accDT where
  written h := by
    obtain rfl := exec_next h
    exact ⟨rfl, rfl⟩
  kept h hi :=
    ⟨exec_keeps (p := .dt) h (by simpa [mayWrite_dt] using hi),
      exec_keeps (p := .accDT) h (by simpa [mayWrite_accDT] using hi)⟩
  decays u := (endCycle_delay u).symm

theorem soundTimer : IsTimer .ldSTVx State.st State.accST where
  written h := by
    obtain rfl := exec_next h
    exact ⟨rfl, rfl⟩
  kept h hi :=
    ⟨exec_keeps (p := .st) h (by simpa [mayWrite_st] using hi),
      exec_keeps (p := .accST) h (by simpa [mayWrite_accST] using hi)⟩
  decays u := (endCycle_sound u).symm

/-! ### The law of a timer -/

section Law

variable {write : RegIdx → Instr} {timer : State → Byte} {acc : State → Rat} {N m : Nat}

/-- The decay of a cycle is one more decay (R147). -/
theorem IsTimer.decayedFrom_endCycle (hT : IsTimer write timer acc) (hips : 0 < u.cfg.ips)
    (h : DecayedFrom N u.cfg.ips m (timer u) (acc u)) :
    DecayedFrom N u.cfg.ips (m + 1) (timer (endCycle u)) (acc (endCycle u)) := by
  have hd := decayedFrom_succ N u.cfg.ips m _ _ hips h
  rwa [hT.decays u] at hd

/-- The cycle that writes a timer starts it, one decay included (R150, R151). -/
theorem IsTimer.decayedFrom_of_write (hT : IsTimer write timer acc) (hips : 0 < s.cfg.ips) (ha : s.About (write x))
    (h : step s = .next t) : DecayedFrom (s.reg x).toNat s.cfg.ips 1 (timer t) (acc t) := by
  obtain ⟨u, hx, rfl⟩ := exec_of_step ha h
  obtain ⟨-, -, hcfg⟩ := exec_keeps_host_state hx
  obtain ⟨htimer, hacc⟩ := hT.written hx
  rw [← hcfg] at hips ⊢
  refine hT.decayedFrom_endCycle hips ?_
  rw [htimer, hacc]
  exact decayedFrom_zero _ _

/-- A cycle that does not write a timer decays it once (R146). -/
theorem IsTimer.decayedFrom_succ_of_step (hT : IsTimer write timer acc) (hips : 0 < s.cfg.ips) (ha : s.About i)
    (hi : ∀ x, i ≠ write x) (h : step s = .next t) (hd : DecayedFrom N s.cfg.ips m (timer s) (acc s)) :
    DecayedFrom N s.cfg.ips (m + 1) (timer t) (acc t) := by
  obtain ⟨u, hx, rfl⟩ := exec_of_step ha h
  obtain ⟨-, -, hcfg⟩ := exec_keeps_host_state hx
  obtain ⟨htimer, hacc⟩ := hT.kept hx hi
  rw [← htimer, ← hacc, ← hcfg] at hd
  rw [← hcfg] at hips ⊢
  exact hT.decayedFrom_endCycle hips hd

/-- The timer law, with the accumulator: after the writing cycle and `m - 1` others, `m` decays have been made (R154). -/
theorem IsTimer.decayedFrom_of_run (hT : IsTimer write timer acc) {run : Nat → State} (hips : 0 < (run 0).cfg.ips)
    (hrun : ∀ k, k < m → step (run k) = .next (run (k + 1))) (ha : (run 0).About (write x))
    (hno : ∀ k y, 1 ≤ k → k < m → ¬ (run k).About (write y)) (hm : 1 ≤ m) :
    (run m).cfg = (run 0).cfg ∧
      DecayedFrom ((run 0).reg x).toNat (run 0).cfg.ips m (timer (run m)) (acc (run m)) := by
  induction m, hm using Nat.le_induction with
  | base =>
    have hstep := hrun 0 Nat.one_pos
    exact ⟨(step_keeps_clock_and_cfg hstep).2, hT.decayedFrom_of_write hips ha hstep⟩
  | succ m hm ih =>
    obtain ⟨hcfg, hd⟩ := ih (fun k hk => hrun k (by omega)) fun k y h1 hk => hno k y h1 (by omega)
    have hstep := hrun m (Nat.lt_succ_self m)
    obtain ⟨i, -, hi, -⟩ := step_next hstep
    have hne (y : RegIdx) : i ≠ write y := fun e => hno m y hm (Nat.lt_succ_self m) (e ▸ hi)
    rw [← hcfg] at hips hd ⊢
    exact ⟨(step_keeps_clock_and_cfg hstep).2, hT.decayedFrom_succ_of_step hips hi hne hstep hd⟩

end Law

/-- Settles O51: either timer is started by its own instruction and decayed once by the cycle of any other. -/
theorem decayedTimerKept : Obligations.DecayedTimerKept := by
  unfold Obligations.DecayedTimerKept
  intro s t i N m hips ha h
  refine ⟨⟨fun x hi => ?_, fun hi => delayTimer.decayedFrom_succ_of_step hips ha hi h⟩,
    fun x hi => ?_, fun hi => soundTimer.decayedFrom_succ_of_step hips ha hi h⟩
  · exact delayTimer.decayedFrom_of_write hips (hi ▸ ha) h
  · exact soundTimer.decayedFrom_of_write hips (hi ▸ ha) h

/-- Settles O50: the value of a timer that the run has decayed `m` times. -/
theorem timerLaw : Obligations.TimerLaw := by
  unfold Obligations.TimerLaw
  exact fun run m hips hm hrun =>
    ⟨fun x ha hno => (delayTimer.decayedFrom_of_run hips hrun ha hno hm).2.value,
      fun x ha hno => (soundTimer.decayedFrom_of_run hips hrun ha hno hm).2.value⟩

/-! ### The decay -/

/-- Settles O8: the rounds of the loop and its range, and the decay of a cycle at each of the two timers. -/
theorem decayFollowsItsLoop : Obligations.DecayFollowsItsLoop := by
  unfold Obligations.DecayFollowsItsLoop
  refine ⟨fun b acc dt => ⟨?zero, decayOne_below b acc dt, decayOne_cross b acc dt, fun hacc hdt => ?range⟩,
    fun t => ⟨(decayTimers_delay t).symm, (decayTimers_sound t).symm, keeps_decayTimers t⟩, fun i s t ha hx => ?cycle⟩
  case zero =>
    rintro rfl
    exact decayOne_zero acc dt
  case range =>
    obtain ⟨hnonneg, hbelow, hstopped⟩ := decayOne_legal b acc dt hacc hdt
    rw [tick_eq] at hbelow
    exact ⟨hnonneg, hbelow, hstopped⟩
  case cycle => exact ⟨_, step_of_about ha hx, delayTimer.decays t, soundTimer.decays t⟩

/-- Settles O9: the closed form of the loop, at the whole sixtieths that the accumulated time holds. -/
theorem decayInClosedForm : Obligations.DecayInClosedForm := by
  unfold Obligations.DecayInClosedForm
  intro b acc dt hb hacc hdt
  obtain ⟨hlo, hhi⟩ := floor_toNat_bounds (r := (acc + dt) * 60) (by positivity)
  exact decayOne_eq b acc dt _ hb hlo hhi

/-! ### The timer instructions -/

theorem soundOn_iff (s : State) : s.soundOn = true ↔ s.st ≠ 0 := decide_eq_true_iff

/-- Settles O48: the read writes one register; each of the two writes updates a timer and its accumulator. -/
theorem timerInstructions : Obligations.TimerInstructions := by
  unfold Obligations.TimerInstructions
  refine fun x s => ⟨⟨hasOpcode_of_encode (formatRI_eq_or_sub 0xF x 0x07), ?read⟩,
    ⟨hasOpcode_of_encode (formatRI_eq_or_sub 0xF x 0x15), ?delay⟩,
    ⟨hasOpcode_of_encode (formatRI_eq_or_sub 0xF x 0x18), ?sound⟩⟩
  case read => exact ExecNext.completes_setReg (value := (· = s.dt)) rfl rfl
  case delay =>
    have hframe := keeps_complete (keeps_setDT s (s.reg x)) .next false
    exact ExecNext.completes rfl ⟨rfl, rfl, rfl, rfl, hframe.mono fun _ => or_assoc.1⟩
  case sound =>
    have hframe := keeps_complete (keeps_setST s (s.reg x)) .next false
    exact ExecNext.completes rfl ⟨rfl, rfl, soundOn_iff _, rfl, rfl, hframe.mono fun _ => or_assoc.1⟩

end Sys2Proof.Machine

/-! SUPPORT. The faults (60_exceptions.md): when an instruction faults and with what, the counterpart of `ExecNext`; and, with
both, that no instruction reads `ST`. -/

namespace Sys2Proof.Machine

-- One theorem after another: many at once ask for more threads than a memory limit of the check allows.
set_option Elab.async false

variable {s t : State} {i : Instr} {f : Fault}

/-! ### When an instruction faults -/

/-- The fault that an instruction raises and the guard under which it does, said once for each instruction; what `exec` answers
a fault with is exactly this (R155). -/
def ExecFault (i : Instr) (s : State) (f : Fault) : Prop :=
  match i with
  | .callAddr _ => f = .stackOverflow s.pc ∧ 16 ≤ s.sp.toNat
  | .ret => f = .stackUnderflow s.pc ∧ s.sp = 0
  | .drwVxVyNibble _ _ n => f = .memoryFault s.i.toNat n.val s.pc ∧ s.i.toNat + n.val > 4096
  | .ldBVx _ => f = .memoryFault s.i.toNat 3 s.pc ∧ s.i.toNat + 3 > 4096
  | .ldMemVx x | .ldVxMem x => f = .memoryFault s.i.toNat (x.val + 1) s.pc ∧ s.i.toNat + (x.val + 1) > 4096
  | _ => False

/-- An instruction that faults under a guard, and completes otherwise. -/
theorem exec_outcome_of_guard {guard guard' : Prop}
    (h : (guard ∧ exec i s = .fault f) ∨ (guard' ∧ exec i s = .next t)) (hf : guard → ExecFault i s f) :
    (∃ t, exec i s = .next t) ∨ ∃ f, exec i s = .fault f ∧ ExecFault i s f :=
  h.symm.imp (fun hn => ⟨t, hn.2⟩) fun hg => ⟨f, hg.2, hf hg.1⟩

/-- Every instruction completes or raises a fault of its own. -/
theorem exec_outcome (i : Instr) (s : State) :
    (∃ t, exec i s = .next t) ∨ ∃ f, exec i s = .fault f ∧ ExecFault i s f := by
  cases i
  case callAddr nnn => exact exec_outcome_of_guard (execCallAddr_cases nnn s) (And.intro rfl)
  case ret => exact exec_outcome_of_guard (execRet_cases s) (And.intro rfl)
  case drwVxVyNibble x y n => exact exec_outcome_of_guard (execDrwVxVyNibble_cases x y n s) (And.intro rfl)
  case ldBVx x => exact exec_outcome_of_guard (storeAtI_cases (bcdDigits (s.reg x)) s) (And.intro rfl)
  case ldMemVx x =>
    have hc := storeAtI_cases (dumpBytes s x) s
    rw [length_dumpBytes] at hc
    exact exec_outcome_of_guard hc (And.intro rfl)
  case ldVxMem x => exact exec_outcome_of_guard (execLdVxMem_cases x s) (And.intro rfl)
  case ldVxK x =>
    rcases execLdVxK_cases x s with ⟨_, -, -, e⟩ | ⟨-, e⟩
    · exact .inl ⟨_, e⟩
    · exact .inl ⟨_, e⟩
  all_goals exact .inl ⟨_, rfl⟩

theorem exec_ne_refused (i : Instr) (s : State) (r : Refusal) : exec i s ≠ .refused r := by
  rcases exec_outcome i s with ⟨t, e⟩ | ⟨f, e, -⟩ <;> simp [e]

theorem exec_fault (h : exec i s = .fault f) : ExecFault i s f := by
  rcases exec_outcome i s with ⟨t, e⟩ | ⟨f', e, hf⟩ <;> cases h.symm.trans e
  exact hf

/-- Under the guard of its fault an instruction does not complete. -/
theorem ExecFault.not_execNext (hf : ExecFault i s f) : ¬ ExecNext i s t := by
  intro hn
  cases i
  case ret => exact hn.1 hf.2
  case callAddr => exact not_lt.2 hf.2 hn.1
  case drwVxVyNibble | ldBVx | ldMemVx | ldVxMem => exact not_le.2 hf.2 hn.1
  all_goals exact hf

/-- An instruction has one fault in a state. -/
theorem ExecFault.unique {f' : Fault} (h : ExecFault i s f) (h' : ExecFault i s f') : f = f' := by
  cases i
  case ret | callAddr | drwVxVyNibble | ldBVx | ldMemVx | ldVxMem => exact h.1.trans h'.1.symm
  all_goals exact h.elim

theorem exec_of_execFault (hf : ExecFault i s f) : exec i s = .fault f := by
  rcases exec_outcome i s with ⟨t, e⟩ | ⟨f', e, hf'⟩
  · exact absurd (exec_next e) hf.not_execNext
  · rw [e, hf.unique hf']

/-- The `PC` recorded is that of the faulting instruction (R155). -/
theorem ExecFault.pc_eq (h : ExecFault i s f) : f.pc = s.pc := by
  cases i
  case ret | callAddr | drwVxVyNibble | ldBVx | ldMemVx | ldVxMem =>
    obtain ⟨rfl, -⟩ := h
    rfl
  all_goals exact h.elim

/-- Settles O52: the clause of each instruction is its entry of `ExecFault`, whose constructor fixes the code. -/
theorem faultsByInstruction : Obligations.FaultsByInstruction := by
  unfold Obligations.FaultsByInstruction
  refine fun i s => ⟨exec_ne_refused i s, fun f h => ⟨(exec_fault h).pc_eq, ?_⟩⟩
  have hf := exec_fault h
  cases i
  case ret | callAddr | drwVxVyNibble | ldBVx | ldMemVx | ldVxMem =>
    obtain ⟨rfl, hguard⟩ := hf
    exact ⟨rfl, rfl, hguard⟩
  all_goals exact hf

theorem step_ne_refused (s : State) (r : Refusal) : step s ≠ .refused r := by
  intro h
  rcases step_cases s with ⟨-, e⟩ | ⟨-, -, e⟩ | ⟨i, -, ⟨t, -, e⟩ | ⟨f, -, e⟩ | ⟨r', hx, e⟩⟩ <;> cases h.symm.trans e
  exact exec_ne_refused i s r hx

/-- Settles O53: the cases of a cycle in their order, each with its one fault. -/
theorem faultPriority : Obligations.FaultPriority := by
  unfold Obligations.FaultPriority
  refine fun s => ⟨step_ne_refused s, fun f hf => ?_⟩
  rcases step_cases s with ⟨h, e⟩ | ⟨h, hd, e⟩ | ⟨i, ha, ⟨t, -, e⟩ | ⟨f', hx, e⟩ | ⟨r, -, e⟩⟩ <;> cases hf.symm.trans e
  · exact ⟨rfl, .inl ⟨h, rfl, rfl⟩⟩
  · exact ⟨rfl, .inr (.inl ⟨h, hd, rfl, rfl⟩)⟩
  · exact ⟨(exec_fault hx).pc_eq, .inr (.inr ⟨i, ha, hx⟩)⟩

/-! ### No instruction reads the sound timer -/

theorem ExecNext.withSound (h : ExecNext i s t) (hi : ∀ x, i ≠ .ldSTVx x) (b : Byte) (acc : Rat) :
    ExecNext i (s.withSound b acc) (t.withSound b acc) := by
  cases i
  case ldSTVx x => exact absurd rfl (hi x)
  case ret | callAddr | drwVxVyNibble | ldBVx | ldMemVx | ldVxMem =>
    obtain ⟨hguard, rfl⟩ := h
    exact ⟨hguard, rfl⟩
  case ldVxK =>
    rcases h with ⟨k, hk, hmin, rfl⟩ | ⟨hn, rfl⟩
    · exact .inl ⟨k, hk, hmin, rfl⟩
    · exact .inr ⟨hn, rfl⟩
  all_goals
    obtain rfl := h
    rfl

theorem ExecFault.withSound (h : ExecFault i s f) (b : Byte) (acc : Rat) : ExecFault i (s.withSound b acc) f := by
  cases i <;> exact h

/-- An instruction other than `FX18` neither reads nor changes the sound timer (R152). -/
theorem exec_withSound (hi : ∀ x, i ≠ .ldSTVx x) (s : State) (b : Byte) (acc : Rat) :
    exec i (s.withSound b acc) = mapNext (·.withSound b acc) (exec i s) := by
  rcases exec_outcome i s with ⟨t, e⟩ | ⟨f, e, hf⟩ <;> rw [e]
  · exact exec_of_execNext ((exec_next e).withSound hi b acc)
  · exact exec_of_execFault (hf.withSound b acc)

/-- Settles O49: `FX18` overwrites the sound timer, no other instruction sees it, and either timer is kept by all but its own
instruction. -/
theorem onlyTimerInstructionsTouchTimers : Obligations.OnlyTimerInstructionsTouchTimers := by
  unfold Obligations.OnlyTimerInstructionsTouchTimers
  refine ⟨fun i s b acc => ?_, fun i s t h => ⟨delayTimer.kept h, soundTimer.kept h⟩⟩
  split_ifs with hi
  · obtain ⟨x, rfl⟩ := hi
    rfl
  · exact exec_withSound (fun x e => hi ⟨x, e⟩) s b acc

end Sys2Proof.Machine

/-! SUPPORT. Reset, construction and program load (70_reset_and_hazards.md). -/

namespace Sys2Proof.Machine

-- One theorem after another: many at once ask for more threads than a memory limit of the check allows.
set_option Elab.async false

/-! ### Memory after reset -/

theorem byteAt_hostReset (s : State) (a : Nat) : (hostReset s).byteAt a = Memory.resetByte s.cfg.glyphs a := rfl

theorem Memory.resetByte_of_lt (g : Glyphs) (a : Fin 80) : resetByte g a = g[a] := dif_pos a.isLt

theorem Memory.resetByte_of_le (g : Glyphs) {a : Nat} (h : 80 ≤ a) : resetByte g a = 0 := dif_neg (not_lt.2 h)

/-! ### The statements -/

/-- Settles O12: each part is the one that construction gives, and construction is its own reset. -/
theorem resetValues : Obligations.ResetValues := by
  unfold Obligations.ResetValues
  refine ⟨fun s => ?_, fun cfg => rfl⟩
  have hreg (x : RegIdx) : (hostReset s).reg x = 0 := Vector.getElem_replicate _
  have hstack (k : Fin 16) : (hostReset s).stack[k] = 0 := Vector.getElem_replicate _
  have hkey (k : Fin 16) : (hostReset s).key k = .idle := Vector.getElem_replicate _
  exact ⟨hreg, rfl, rfl, rfl, hstack, rfl, rfl, rfl, rfl, rfl, Memory.resetByte_of_lt s.cfg.glyphs,
    fun a ha _ => Memory.resetByte_of_le s.cfg.glyphs ha, Framebuffer.get_blank, hkey, rfl, rfl⟩

/-- Settles O13: construction with a positive rate is legal, and the open rate is a positive number. -/
theorem resetIsLegal : Obligations.ResetIsLegal := by
  unfold Obligations.ResetIsLegal
  exact ⟨State.Inv.construct Config.ipsDefault.pos, rfl⟩

/-- Settles O58: a load is one store at `0x200`, or the fault of one that does not fit. -/
theorem programLoad : Obligations.ProgramLoad := by
  unfold Obligations.ProgramLoad
  intro image s
  rcases load_cases s image with ⟨h, e⟩ | ⟨h, e⟩
  · exact ⟨fun _ => ⟨e, by rw [afterCall, e]; rfl⟩, fun h' => absurd h (not_lt.2 h')⟩
  · refine ⟨fun h' => absurd h' (not_lt.2 h), fun _ => ⟨_, e, by rw [afterCall, e]; rfl, fun j hj => ?_, ?frame⟩⟩
    case frame => exact keeps_setBytes s _ image
    have hb := List.getElem?_eq_getElem hj
    rw [byteAt_setBytes_of_getElem? 0x200 hb, hb]

end Sys2Proof.Machine
